-- ==== Sys2Proof/Word.lean ====
section
/-! DEFINITION. The widths of the machine: spec/00_scope.md R6, R7, R9. -/

namespace Sys2Proof

/-- A 32-bit value: an x register, `pc`, an address, a 32-bit instruction word (R6: XLEN = 32). -/
abbrev Word := BitVec 32

/-- The addressable unit (20_memory.md R41). -/
abbrev Byte := BitVec 8

/-- 16 bits of instruction stream (00_scope.md R12). -/
abbrev Parcel := BitVec 16

/-- A 5-bit register field: it names one of x0 to x31 (10_state.md R20). -/
abbrev RegIdx := BitVec 5

/-- A 3-bit primed register field: it names one of x8 to x15 (48_compressed.md R221). -/
abbrev CRegIdx := BitVec 3

end Sys2Proof
end

