-- ==== Sys2Proof/Config.lean ====
section
/-! DEFINITION. The parameters an implementation fixes (spec/00_scope.md R6 and the table of open
parameters in 92_eei_decisions.md), with the value this model gives each at reset. -/

namespace Sys2Proof

/-- The three permissions of a region (20_memory.md R50). -/
inductive Access
  | read | write | execute
  deriving DecidableEq, Repr

/-- One region of `MEM_MAP`: a pair of an address range and a subset of the permissions
(20_memory.md R50; the fields are those of D5). -/
structure Region where
  base : Word
  size : Nat
  canRead : Bool
  canWrite : Bool
  canExecute : Bool
  deriving DecidableEq, Repr

/-- `MEM_MAP`: a finite set of regions (20_memory.md R50). -/
abbrev MemMap := List Region

/-- DESIGN CHOICE (unsafe, log entry 1): `RESET_PC` is OPEN in the spec (D13); this is the value that
95_test_vectors.md Part 3 gives it for all its programs. -/
def Config.resetPc : Word := 0x00001000#32

/-- DESIGN CHOICE (unsafe, log entry 2): the value of each of x1 to x31 at reset, which the spec leaves
unspecified (10_state.md R35). -/
def Config.resetReg : Word := 0x00000000#32

/-- The default `MEM_MAP` of 20_memory.md R50: one region covering all 2^32 bytes with all three
permissions. -/
def Config.defaultMemMap : MemMap :=
  [{ base := 0x00000000#32, size := 4294967296, canRead := true, canWrite := true, canExecute := true }]

end Sys2Proof
end

