-- ==== Sys2Proof/Machine/State.lean ====
section
/-! DEFINITION. The state of the hart: spec/10_state.md, with the exceptions' names of
60_exceptions.md R250, the reasons a step can stop, and the state after reset (R35). -/

namespace Sys2Proof.Machine

/-- The bytes of memory that differ from what an unlisted address reads as (Machine/Memory.lean), in the
canonical form Memory.wf states. The keys are byte addresses below 2^32 (20_memory.md R40). -/
abbrev Memory := List Host.Cell

/-- The synchronous exceptions of 60_exceptions.md R250, in the order of their codes. -/
inductive Cause
  /-- Code 0: listed and never raised (R251). -/
  | instructionAddressMisaligned
  /-- Code 1: a fetched byte lacks execute permission (R252). -/
  | instructionAccessFault
  /-- Code 2: the fetched bits are no admitted instruction (R253). -/
  | illegalInstruction
  /-- Code 3: EBREAK (R258). -/
  | breakpoint
  /-- Code 4 (R254). -/
  | loadAddressMisaligned
  /-- Code 5 (R255). -/
  | loadAccessFault
  /-- Code 6 (R254). -/
  | storeAddressMisaligned
  /-- Code 7 (R255). -/
  | storeAccessFault
  /-- Code 11: ECALL (R258). -/
  | environmentCall
  deriving DecidableEq, Repr

/-- An exception with the value it carries: the `E(info)` of 00_scope.md R10. -/
structure Trap where
  cause : Cause
  tval : Word
  deriving DecidableEq, Repr

/-- The model-level halt state of 10_state.md R34. -/
inductive Halt
  | running
  | halted (cause : Cause) (epc tval : Word)
  deriving DecidableEq, Repr

/-- The one privilege mode (60_exceptions.md R265). -/
inductive Mode
  | single
  deriving DecidableEq, Repr

/-- Why a step of this machine can stop with a fault. -/
inductive Fault
  /-- Raised by `step` in a state whose `halt` is not `running`: "a halted hart takes no further step"
  (10_state.md R34, 60_exceptions.md R256, 93_implementation_defined.md U17). Safe: nothing is claimed of
  what follows a halt. -/
  | hartHalted
  deriving DecidableEq, Repr

/-- Why a step of this machine can be refused. -/
inductive Refusal
  /-- An arm of `exec` without a meaning; no arm answers it. Safe. -/
  | notModelled (mnemonic : String)
  /-- Raised by `step` when a byte it fetches is in `dirty`: the run is "refused(self-modifying code)"
  (20_memory.md R56). `pc` is the address of the instruction. Safe: the spec gives the run no meaning. -/
  | selfModifyingCode (pc : Word)
  deriving DecidableEq, Repr

/-- The state of the hart (10_state.md). -/
structure State where
  /-- The address of the instruction being executed (R25). -/
  pc : Word
  /-- x1 to x31, x1 first. x0 has no storage: it is hardwired (R22). -/
  x : Vector Word 31
  /-- One byte for each address (R33). -/
  mem : Memory
  /-- `halt` (R34). -/
  halt : Halt
  /-- `dirty`: the byte addresses a store has written since reset (R34), strictly rising. -/
  dirty : List Nat
  /-- `MEM_MAP` (20_memory.md R50): a parameter of the machine, which no step changes. -/
  memMap : MemMap
  /-- The privilege mode (R35, 60_exceptions.md R265). -/
  mode : Mode
  deriving DecidableEq, Repr

/-- What an instruction or a step answers. -/
abbrev Result := Host.Outcome State Fault Refusal

/-- The arguments the spec leaves to the model: `RESET_PC`, `MEM_INIT`, `MEM_MAP` and the reset values of
x1 to x31 (10_state.md R35, 92_eei_decisions.md D13). -/
structure BootParams where
  resetPc : Word
  memInit : Memory
  memMap : MemMap
  x : Vector Word 31
  deriving DecidableEq, Repr

/-- The state after reset for given parameters (10_state.md R35, 70_reset_and_hazards.md R290). -/
def State.boot (p : BootParams) : State :=
  { pc := p.resetPc
    x := p.x
    mem := p.memInit
    halt := .running
    dirty := []
    memMap := p.memMap
    mode := .single }

/-- The parameters of State.reset: DESIGN CHOICE, log entries 1 to 4. -/
def BootParams.default : BootParams :=
  { resetPc := Config.resetPc
    memInit := []
    memMap := Config.defaultMemMap
    x := Vector.replicate 31 Config.resetReg }

/-- The machine right after reset, with the parameters of Config. -/
def State.reset : State := State.boot BootParams.default

end Sys2Proof.Machine
end

