-- ==== Sys2Proof/Machine/Flags.lean ====
section
/-! DEFINITION. There are no status flags (spec/10_state.md R30): what other machines keep in flags is here
the result of a comparison, consumed by a branch or written to a register as 0 or 1. The comparisons are
those of 00_scope.md R10 and 46_op.md R201 (d). -/

namespace Sys2Proof.Machine

/-- All 32 bits equal (42_branches.md R141). -/
def isEq (a b : Word) : Bool := a == b

/-- `a <s b`: two's-complement reading (00_scope.md R9). -/
def isLtS (a b : Word) : Bool := BitVec.slt a b

/-- `a <u b`. -/
def isLtU (a b : Word) : Bool := BitVec.ult a b

/-- The 32-bit value 0x00000001 or 0x00000000 (45_op_imm.md R172). -/
def oneOrZero (c : Bool) : Word := if c then 1#32 else 0#32

end Sys2Proof.Machine
end

