-- ==== Sys2Proof/Machine/Memory.lean ====
section
/-! DEFINITION. One byte-addressed memory with its map of permissions: spec/20_memory.md R33, R40 to R46,
R50, and the set `dirty` of 10_state.md R34. -/

namespace Sys2Proof.Machine

/-- DESIGN CHOICE (unsafe, log entry 3): what a byte that the memory does not list reads as. The spec makes
memory after reset the parameter `MEM_INIT` (10_state.md R35). -/
def unlistedByte : Byte := 0x00#8

/-- The byte at a key of the list. -/
def Memory.lookup : Memory → Nat → Byte
  | [], _ => unlistedByte
  | (a, b) :: m, k => if a = k then b else Memory.lookup m k

/-- `M[a]`: the byte memory holds at address `a` (R33, R44). -/
def Memory.byteAt (m : Memory) (a : Word) : Byte := Memory.lookup m a.toNat

/-- The list without the cells of key `k`. -/
def Memory.erase : Memory → Nat → Memory
  | [], _ => []
  | (a, b) :: m, k => if a = k then Memory.erase m k else (a, b) :: Memory.erase m k

/-- The list with a cell put before the first cell of a higher key. -/
def Memory.insert : Memory → Nat → Byte → Memory
  | [], k, v => [(k, v)]
  | (a, b) :: m, k, v => if k < a then (k, v) :: (a, b) :: m else (a, b) :: Memory.insert m k v

/-- `M[a] <- v`, keeping the canonical form: a byte that reads as an unlisted one is not listed. -/
def Memory.setByte (m : Memory) (a : Word) (v : Byte) : Memory :=
  if v = unlistedByte then Memory.erase m a.toNat
  else Memory.insert (Memory.erase m a.toNat) a.toNat v

/-- The canonical form: addresses below 2^32 and strictly rising, no entry equal to what an unlisted address
reads as. -/
abbrev Memory.wf (m : Memory) : Prop :=
  m.Pairwise (fun c d => c.1 < d.1) ∧ ∀ c ∈ m, c.1 < 4294967296 ∧ c.2 ≠ unlistedByte

/-- The three access widths of R41. -/
inductive Width
  | byte | half | word
  deriving DecidableEq, Repr

/-- The `n` of MemRead and MemWrite. -/
@[reducible] def Width.bytes : Width → Nat
  | .byte => 1
  | .half => 2
  | .word => 4

/-- `8n`. -/
@[reducible] def Width.bits : Width → Nat
  | .byte => 8
  | .half => 16
  | .word => 32

/-- The addresses an access touches: `(addr + i) mod 2^32` for `i` from 0 to `n-1` (R42). -/
def touched (addr : Word) (n : Nat) : List Word :=
  (List.range n).map (fun k => addr + BitVec.ofNat 32 k)

/-- Little-endian read: the byte at the lowest address is the least significant one (R43, R44). -/
def Memory.readLE (m : Memory) (addr : Word) : (n : Width) → BitVec n.bits
  | .byte => m.byteAt addr
  | .half => m.byteAt (addr + 1#32) ++ m.byteAt addr
  | .word => m.byteAt (addr + 3#32) ++ m.byteAt (addr + 2#32) ++ m.byteAt (addr + 1#32) ++ m.byteAt addr

/-- Little-endian write: `M[addr+i] <- v[8i+7:8i]` for `i` from 0 to `n-1` (R43, R45). -/
def Memory.writeLE (m : Memory) (addr : Word) : (n : Width) → BitVec n.bits → Memory
  | .byte, v => m.setByte addr v
  | .half, v => (m.setByte addr (v.extractLsb' 0 8)).setByte (addr + 1#32) (v.extractLsb' 8 8)
  | .word, v =>
    (((m.setByte addr (v.extractLsb' 0 8)).setByte (addr + 1#32) (v.extractLsb' 8 8)).setByte
      (addr + 2#32) (v.extractLsb' 16 8)).setByte (addr + 3#32) (v.extractLsb' 24 8)

/-! ## Permissions (R50) -/

/-- The address lies in the region. -/
def regionCovers (r : Region) (a : Word) : Bool :=
  decide (r.base.toNat ≤ a.toNat) && decide (a.toNat < r.base.toNat + r.size)

/-- The region grants the permission. -/
def regionGrants (r : Region) : Access → Bool
  | .read => r.canRead
  | .write => r.canWrite
  | .execute => r.canExecute

/-- Some region covers the byte and grants the permission; "a byte that lies in no region has no
permission" (R50). -/
def mapAllows (map : MemMap) (k : Access) (a : Word) : Bool :=
  map.any (fun r => regionCovers r a && regionGrants r k)

/-- Every byte of an access of `n` bytes at `addr` has the permission. -/
def mapAllowsAll (map : MemMap) (k : Access) (addr : Word) (n : Nat) : Bool :=
  (touched addr n).all (mapAllows map k)

/-- R50 and D5: sizes are 1 to 2^32, no region wraps past 2^32 - 1, regions do not overlap. -/
abbrev mapWf (map : MemMap) : Prop :=
  (∀ r ∈ map, 1 ≤ r.size ∧ r.base.toNat + r.size ≤ 4294967296) ∧
    map.Pairwise (fun r q =>
      r.base.toNat + r.size ≤ q.base.toNat ∨ q.base.toNat + q.size ≤ r.base.toNat)

/-! ## The set `dirty` (10_state.md R34) -/

/-- One address put into the rising list. -/
def dirtyInsert : List Nat → Nat → List Nat
  | [], k => [k]
  | a :: l, k => if k < a then k :: a :: l else if k = a then a :: l else a :: dirtyInsert l k

/-- The addresses of an access put into the set (R45). -/
def dirtyAdd (d : List Nat) (addr : Word) (n : Nat) : List Nat :=
  (touched addr n).foldl (fun l a => dirtyInsert l a.toNat) d

/-- Some byte of an access of `n` bytes at `addr` is in the set (R56). -/
def dirtyAny (d : List Nat) (addr : Word) (n : Nat) : Bool :=
  (touched addr n).any (fun a => d.contains a.toNat)

/-- The canonical form of the set: byte addresses, strictly rising. -/
abbrev dirtyWf (d : List Nat) : Prop := d.Pairwise (· < ·) ∧ ∀ a ∈ d, a < 4294967296

end Sys2Proof.Machine
end

