-- ==== Sys2Proof/Machine/Ops.lean ====
section
/-! DEFINITION. The named operations the meanings are written over: the primitives of spec/00_scope.md R10,
and taking an exception. -/

namespace Sys2Proof.Machine

/-! ## Registers (10_state.md R22) -/

/-- `x[i]`: x0 reads as 0. -/
def State.getX (s : State) (r : RegIdx) : Word :=
  if r = 0#5 then 0#32 else s.x[r.toNat - 1]'(by have := r.isLt; omega)

/-- `x[i] <- v`: a write to x0 is discarded. -/
def State.setX (s : State) (r : RegIdx) (v : Word) : State :=
  if r = 0#5 then s else { s with x := s.x.set (r.toNat - 1) v (by have := r.isLt; omega) }

/-! ## The program counter (10_state.md R26, R28) -/

/-- `pc <- t`. -/
def State.setPc (s : State) (t : Word) : State := { s with pc := t }

/-- The next sequential pc: `pc + ilen` modulo 2^32. -/
def State.advance (s : State) (ilen : Word) : State := s.setPc (s.pc + ilen)

/-! ## Exceptions -/

/-- Taking an exception (60_exceptions.md R256): `halt` becomes `halted(E, p, v)` with `p` the address of the
instruction, and nothing else changes: no register, no byte of memory, not `dirty`, not `pc`, no mode.
There is no return from an exception: the hardware has no such instruction and a halted hart takes no
further step (R261). -/
def State.raise (s : State) (t : Trap) : State := { s with halt := .halted t.cause s.pc t.tval }

/-- The code of an exception: a label of the halt record, which no program can read (R250). -/
def causeCode : Cause → Nat
  | .instructionAddressMisaligned => 0
  | .instructionAccessFault => 1
  | .illegalInstruction => 2
  | .breakpoint => 3
  | .loadAddressMisaligned => 4
  | .loadAccessFault => 5
  | .storeAddressMisaligned => 6
  | .storeAccessFault => 7
  | .environmentCall => 11

/-! ## Memory accesses (20_memory.md R44, R45, R59) -/

/-- `MemRead(addr, n)`: alignment, then permission, then the value (R44). -/
def State.memRead (s : State) (addr : Word) (n : Width) : Except Trap (BitVec n.bits) :=
  if addr.toNat % n.bytes ≠ 0 then .error ⟨.loadAddressMisaligned, addr⟩
  else if mapAllowsAll s.memMap .read addr n.bytes = false then .error ⟨.loadAccessFault, addr⟩
  else .ok (s.mem.readLE addr n)

/-- `MemWrite(addr, n, v)`: alignment, then permission, then the bytes and `dirty` (R45). -/
def State.memWrite (s : State) (addr : Word) (n : Width) (v : BitVec n.bits) : Except Trap State :=
  if addr.toNat % n.bytes ≠ 0 then .error ⟨.storeAddressMisaligned, addr⟩
  else if mapAllowsAll s.memMap .write addr n.bytes = false then .error ⟨.storeAccessFault, addr⟩
  else .ok { s with mem := s.mem.writeLE addr n v, dirty := dirtyAdd s.dirty addr n.bytes }

/-! ## The shapes of the instruction rules -/

/-- `x[rd] <- v; pc <- pc + ilen`. -/
def State.writeReg (s : State) (rd : RegIdx) (v : Word) (ilen : Word) : Result :=
  .next ((s.setX rd v).advance ilen)

/-- `x[rd] <- pc + ilen; pc <- t` (41_jumps.md R130, R131; 48_compressed.md R229). -/
def State.linkAndJump (s : State) (rd : RegIdx) (t : Word) (ilen : Word) : Result :=
  .next ((s.setX rd (s.pc + ilen)).setPc t)

/-- `if cond then pc <- pc + offset else pc <- pc + 4` (42_branches.md R140). -/
def State.branch (s : State) (cond : Bool) (offset : Word) : Result :=
  .next (if cond then s.setPc (s.pc + offset) else s.advance 4#32)

/-- `v <- MemRead(addr, n); x[rd] <- ext(v); pc <- pc + ilen` (43_loads.md R150). -/
def State.load (s : State) (rd : RegIdx) (addr : Word) (n : Width) (ext : BitVec n.bits → Word)
    (ilen : Word) : Result :=
  match s.memRead addr n with
  | .error t => .next (s.raise t)
  | .ok v => s.writeReg rd (ext v) ilen

/-- `MemWrite(addr, n, v); pc <- pc + ilen` (44_stores.md R160). -/
def State.store (s : State) (addr : Word) (n : Width) (v : BitVec n.bits) (ilen : Word) : Result :=
  match s.memWrite addr n v with
  | .error t => .next (s.raise t)
  | .ok s' => .next (s'.advance ilen)

end Sys2Proof.Machine
end

