-- ==== Sys2Proof/Machine/Operands.lean ====
section
/-! DEFINITION. Every operand form of spec/30_encoding.md: the immediates R81 to R91 from the bits Instr
holds, the register numbers of R90, the shift amounts, the effective addresses. -/

namespace Sys2Proof.Machine

/-- R84: `imm[31:12]` with twelve zeros below. -/
def immU (imm : BitVec 20) : Word := imm ++ 0#12

/-- R81 and R82: the I- and the S-immediate. -/
def imm12 (imm : BitVec 12) : Word := imm.signExtend 32

/-- R83: offset[12:1] with a zero below, sign-extended. -/
def offsetB (imm : BitVec 12) : Word := (imm ++ 0#1).signExtend 32

/-- R85: offset[20:1] with a zero below, sign-extended. -/
def offsetJ (imm : BitVec 20) : Word := (imm ++ 0#1).signExtend 32

/-- R87: nzuimm[9:2] with two zeros below, zero-extended. -/
def immCIW (nzuimm : BitVec 8) : Word := (nzuimm ++ 0#2).setWidth 32

/-- R88: uimm[6:2] with two zeros below, zero-extended. -/
def immCL (uimm : BitVec 5) : Word := (uimm ++ 0#2).setWidth 32

/-- R89: sign extension from bit 5. -/
def immCI (imm : BitVec 6) : Word := imm.signExtend 32

/-- R91: offset[11:1] with a zero below, sign-extended. -/
def offsetCJ (imm : BitVec 11) : Word := (imm ++ 0#1).signExtend 32

/-- R90, 48_compressed.md R221: a primed field names register 8 + field. -/
def cReg (r : CRegIdx) : RegIdx := 8#5 + r.setWidth 5

/-- 46_op.md R193: only the low five bits of rs2 are the shift amount. -/
def shiftAmount (b : Word) : BitVec 5 := b.extractLsb' 0 5

/-- The one addressing mode: base plus displacement, modulo 2^32 (43_loads.md R150, 44_stores.md R160). -/
def State.baseDisp (s : State) (rs1 : RegIdx) (disp : Word) : Word := s.getX rs1 + disp

/-- 41_jumps.md R131: the target of JALR, bit 0 forced to zero. -/
def State.jalrTarget (s : State) (rs1 : RegIdx) (imm : BitVec 12) : Word :=
  s.baseDisp rs1 (imm12 imm) &&& 0xFFFFFFFE#32

end Sys2Proof.Machine
end

