-- ==== Sys2Proof/Machine/Branches.lean ====
section
/-! DEFINITION. BEQ, BNE, BLT, BGE, BLTU, BGEU: spec/42_branches.md. -/

namespace Sys2Proof.Machine

/-- R141. -/
def execBeq (rs1 rs2 : RegIdx) (imm : BitVec 12) (s : State) : Result :=
  s.branch (isEq (s.getX rs1) (s.getX rs2)) (offsetB imm)

/-- R142. -/
def execBne (rs1 rs2 : RegIdx) (imm : BitVec 12) (s : State) : Result :=
  s.branch (!isEq (s.getX rs1) (s.getX rs2)) (offsetB imm)

/-- R143. -/
def execBlt (rs1 rs2 : RegIdx) (imm : BitVec 12) (s : State) : Result :=
  s.branch (isLtS (s.getX rs1) (s.getX rs2)) (offsetB imm)

/-- R144. -/
def execBge (rs1 rs2 : RegIdx) (imm : BitVec 12) (s : State) : Result :=
  s.branch (!isLtS (s.getX rs1) (s.getX rs2)) (offsetB imm)

/-- R145. -/
def execBltu (rs1 rs2 : RegIdx) (imm : BitVec 12) (s : State) : Result :=
  s.branch (isLtU (s.getX rs1) (s.getX rs2)) (offsetB imm)

/-- R146. -/
def execBgeu (rs1 rs2 : RegIdx) (imm : BitVec 12) (s : State) : Result :=
  s.branch (!isLtU (s.getX rs1) (s.getX rs2)) (offsetB imm)

end Sys2Proof.Machine
end

