-- ==== Sys2Proof/Syntax.lean ====
section
/-! DEFINITION. The instructions: one constructor per row of spec/opcode_table.json, in the table's
order, with the fields of the row's encoding. An immediate is held as the bits the instruction stores
(90_conflicts.md C11: a branch stores offset bits 12 to 1), so that no term stands for an offset that no
word encodes; Machine/Operands.lean extends it. -/

namespace Sys2Proof

inductive Instr
  -- 40_upper_immediate.md: imm is imm[31:12]
  | lui   (rd : RegIdx) (imm : BitVec 20)
  | auipc (rd : RegIdx) (imm : BitVec 20)
  -- 41_jumps.md: JAL's imm is offset[20:1]
  | jal   (rd : RegIdx) (imm : BitVec 20)
  | jalr  (rd rs1 : RegIdx) (imm : BitVec 12)
  -- 42_branches.md: imm is offset[12:1]
  | beq   (rs1 rs2 : RegIdx) (imm : BitVec 12)
  | bne   (rs1 rs2 : RegIdx) (imm : BitVec 12)
  | blt   (rs1 rs2 : RegIdx) (imm : BitVec 12)
  | bge   (rs1 rs2 : RegIdx) (imm : BitVec 12)
  | bltu  (rs1 rs2 : RegIdx) (imm : BitVec 12)
  | bgeu  (rs1 rs2 : RegIdx) (imm : BitVec 12)
  -- 43_loads.md
  | lb    (rd rs1 : RegIdx) (imm : BitVec 12)
  | lh    (rd rs1 : RegIdx) (imm : BitVec 12)
  | lw    (rd rs1 : RegIdx) (imm : BitVec 12)
  | lbu   (rd rs1 : RegIdx) (imm : BitVec 12)
  | lhu   (rd rs1 : RegIdx) (imm : BitVec 12)
  -- 44_stores.md: rs1 the base, rs2 the data
  | sb    (rs1 rs2 : RegIdx) (imm : BitVec 12)
  | sh    (rs1 rs2 : RegIdx) (imm : BitVec 12)
  | sw    (rs1 rs2 : RegIdx) (imm : BitVec 12)
  -- 45_op_imm.md
  | addi  (rd rs1 : RegIdx) (imm : BitVec 12)
  | slti  (rd rs1 : RegIdx) (imm : BitVec 12)
  | sltiu (rd rs1 : RegIdx) (imm : BitVec 12)
  | xori  (rd rs1 : RegIdx) (imm : BitVec 12)
  | ori   (rd rs1 : RegIdx) (imm : BitVec 12)
  | andi  (rd rs1 : RegIdx) (imm : BitVec 12)
  | slli  (rd rs1 : RegIdx) (shamt : BitVec 5)
  | srli  (rd rs1 : RegIdx) (shamt : BitVec 5)
  | srai  (rd rs1 : RegIdx) (shamt : BitVec 5)
  -- 46_op.md
  | add   (rd rs1 rs2 : RegIdx)
  | sub   (rd rs1 rs2 : RegIdx)
  | sll   (rd rs1 rs2 : RegIdx)
  | slt   (rd rs1 rs2 : RegIdx)
  | sltu  (rd rs1 rs2 : RegIdx)
  | xor   (rd rs1 rs2 : RegIdx)
  | srl   (rd rs1 rs2 : RegIdx)
  | sra   (rd rs1 rs2 : RegIdx)
  | or    (rd rs1 rs2 : RegIdx)
  | and   (rd rs1 rs2 : RegIdx)
  -- 47_fence_system.md
  | fence (fm pred succ : BitVec 4) (rs1 rd : RegIdx)
  | ecall
  | ebreak
  -- 48_compressed.md: nzuimm is nzuimm[9:2], uimm is uimm[6:2], C.JAL's imm is offset[11:1];
  -- C.RESERVED keeps its don't-care bits 12:2, which the exception's value shows
  | cIllegal
  | cNop
  | cAddi4spn (rd : CRegIdx) (nzuimm : BitVec 8)
  | cLw       (rd rs1 : CRegIdx) (uimm : BitVec 5)
  | cReserved (bits : BitVec 11)
  | cSw       (rs1 rs2 : CRegIdx) (uimm : BitVec 5)
  | cAddi     (rd : RegIdx) (nzimm : BitVec 6)
  | cJal      (imm : BitVec 11)
  | cLi       (rd : RegIdx) (imm : BitVec 6)
  deriving DecidableEq, Repr

/-- The row's mnemonic in spec/opcode_table.json. -/
def Instr.mnemonic : Instr → String
  | .lui _ _ => "LUI"
  | .auipc _ _ => "AUIPC"
  | .jal _ _ => "JAL"
  | .jalr _ _ _ => "JALR"
  | .beq _ _ _ => "BEQ"
  | .bne _ _ _ => "BNE"
  | .blt _ _ _ => "BLT"
  | .bge _ _ _ => "BGE"
  | .bltu _ _ _ => "BLTU"
  | .bgeu _ _ _ => "BGEU"
  | .lb _ _ _ => "LB"
  | .lh _ _ _ => "LH"
  | .lw _ _ _ => "LW"
  | .lbu _ _ _ => "LBU"
  | .lhu _ _ _ => "LHU"
  | .sb _ _ _ => "SB"
  | .sh _ _ _ => "SH"
  | .sw _ _ _ => "SW"
  | .addi _ _ _ => "ADDI"
  | .slti _ _ _ => "SLTI"
  | .sltiu _ _ _ => "SLTIU"
  | .xori _ _ _ => "XORI"
  | .ori _ _ _ => "ORI"
  | .andi _ _ _ => "ANDI"
  | .slli _ _ _ => "SLLI"
  | .srli _ _ _ => "SRLI"
  | .srai _ _ _ => "SRAI"
  | .add _ _ _ => "ADD"
  | .sub _ _ _ => "SUB"
  | .sll _ _ _ => "SLL"
  | .slt _ _ _ => "SLT"
  | .sltu _ _ _ => "SLTU"
  | .xor _ _ _ => "XOR"
  | .srl _ _ _ => "SRL"
  | .sra _ _ _ => "SRA"
  | .or _ _ _ => "OR"
  | .and _ _ _ => "AND"
  | .fence _ _ _ _ _ => "FENCE"
  | .ecall => "ECALL"
  | .ebreak => "EBREAK"
  | .cIllegal => "C.ILLEGAL"
  | .cNop => "C.NOP"
  | .cAddi4spn _ _ => "C.ADDI4SPN"
  | .cLw _ _ _ => "C.LW"
  | .cReserved _ => "C.RESERVED"
  | .cSw _ _ _ => "C.SW"
  | .cAddi _ _ => "C.ADDI"
  | .cJal _ => "C.JAL"
  | .cLi _ _ => "C.LI"

end Sys2Proof
end

