-- ==== Sys2Proof/WellFormed.lean ====
section
/-! DEFINITION. The constraints that a term of Instr can break: the captions of the 16-bit rows
(spec/30_encoding.md R94). Every other constraint of the encodings is in the widths of the fields. -/

namespace Sys2Proof

/-- Some word encodes the instruction: R94's "nzuimm != 0" (C.ADDI4SPN), "rd != 0 and nzimm != 0"
(C.ADDI), "rd != 0" (C.LI). -/
def Instr.wellFormed : Instr → Bool
  | .lui _ _ | .auipc _ _ | .jal _ _ | .jalr _ _ _ => true
  | .beq _ _ _ | .bne _ _ _ | .blt _ _ _ | .bge _ _ _ | .bltu _ _ _ | .bgeu _ _ _ => true
  | .lb _ _ _ | .lh _ _ _ | .lw _ _ _ | .lbu _ _ _ | .lhu _ _ _ => true
  | .sb _ _ _ | .sh _ _ _ | .sw _ _ _ => true
  | .addi _ _ _ | .slti _ _ _ | .sltiu _ _ _ | .xori _ _ _ | .ori _ _ _ | .andi _ _ _ => true
  | .slli _ _ _ | .srli _ _ _ | .srai _ _ _ => true
  | .add _ _ _ | .sub _ _ _ | .sll _ _ _ | .slt _ _ _ | .sltu _ _ _ => true
  | .xor _ _ _ | .srl _ _ _ | .sra _ _ _ | .or _ _ _ | .and _ _ _ => true
  | .fence _ _ _ _ _ | .ecall | .ebreak => true
  | .cIllegal | .cNop | .cLw _ _ _ | .cReserved _ | .cSw _ _ _ | .cJal _ => true
  | .cAddi4spn _ nzuimm => decide (nzuimm ≠ 0#8)
  | .cAddi rd nzimm => decide (rd ≠ 0#5) && decide (nzimm ≠ 0#6)
  | .cLi rd _ => decide (rd ≠ 0#5)

end Sys2Proof
end

