-- ==== Sys2Proof/Decode.lean ====
section
/-! DEFINITION. From bits to an instruction or a rejection by name, and back: spec/30_encoding.md. The
decoder stands first, the encoder after it, each written from the format tables R72 to R91 and the row
lists R93, R94. -/

namespace Sys2Proof

/-- What a fetch delivers: a 16-bit parcel or a 32-bit word (20_memory.md R55). -/
inductive InstWord
  | parcel (h : Parcel)
  | word (w : Word)
  deriving DecidableEq, Repr

/-- Why some bits are no admitted instruction. Each reason but the last becomes the exception
IllegalInstruction in the step (30_encoding.md R100, R101; 60_exceptions.md R253). -/
inductive Reject
  /-- A 32-bit word whose opcode is not in R92. -/
  | unlistedOpcode
  /-- A 32-bit word whose opcode is in R92 and whose other fixed bits match no row of R93. -/
  | unlistedFunction
  /-- A parcel that matches no row of R94 (48_compressed.md R232). -/
  | unlistedParcel
  /-- A parcel with a row's fixed bits whose constraint fails (48_compressed.md R231). -/
  | constraintFails
  /-- Fewer bytes than the length of the instruction: only decodeBytes answers it, never a fetch. -/
  | tooFewBytes
  deriving DecidableEq, Repr

/-- R70: the two least significant bits of the first parcel are 11, so the instruction has 32 bits. -/
def isLong (lo : Parcel) : Bool := decide (lo.extractLsb' 0 2 = 3#2)

/-! ## Fields of a 32-bit word (R72 to R79, R81 to R86) -/

def opcodeOf (w : Word) : BitVec 7 := w.extractLsb' 0 7
def rdOf (w : Word) : RegIdx := w.extractLsb' 7 5
def funct3Of (w : Word) : BitVec 3 := w.extractLsb' 12 3
def rs1Of (w : Word) : RegIdx := w.extractLsb' 15 5
def rs2Of (w : Word) : RegIdx := w.extractLsb' 20 5
def funct7Of (w : Word) : BitVec 7 := w.extractLsb' 25 7

/-- R86. -/
def shamtOf (w : Word) : BitVec 5 := w.extractLsb' 20 5

/-- R81: inst[31:20]. -/
def immIOf (w : Word) : BitVec 12 := w.extractLsb' 20 12

/-- R82: inst[31:25], inst[11:7]. -/
def immSOf (w : Word) : BitVec 12 := w.extractLsb' 25 7 ++ w.extractLsb' 7 5

/-- R83 without its bit 0: inst[31], inst[7], inst[30:25], inst[11:8]. -/
def immBOf (w : Word) : BitVec 12 :=
  w.extractLsb' 31 1 ++ w.extractLsb' 7 1 ++ w.extractLsb' 25 6 ++ w.extractLsb' 8 4

/-- R84: inst[31:12]. -/
def immUOf (w : Word) : BitVec 20 := w.extractLsb' 12 20

/-- R85 without its bit 0: inst[31], inst[19:12], inst[20], inst[30:21]. -/
def immJOf (w : Word) : BitVec 20 :=
  w.extractLsb' 31 1 ++ w.extractLsb' 12 8 ++ w.extractLsb' 20 1 ++ w.extractLsb' 21 10

/-! ## Fields of a parcel (R87 to R91) -/

/-- Bits 4:2: rd' or rs2' (R87, R88). -/
def cLowRegOf (h : Parcel) : CRegIdx := h.extractLsb' 2 3

/-- Bits 9:7: rs1' (R88). -/
def cRs1Of (h : Parcel) : CRegIdx := h.extractLsb' 7 3

/-- Bits 11:7: rd (R89). -/
def cRdOf (h : Parcel) : RegIdx := h.extractLsb' 7 5

/-- R87 without its two low zeros: inst[10:7], inst[12:11], inst[5], inst[6]. -/
def immCIWOf (h : Parcel) : BitVec 8 :=
  h.extractLsb' 7 4 ++ h.extractLsb' 11 2 ++ h.extractLsb' 5 1 ++ h.extractLsb' 6 1

/-- R88 without its two low zeros: inst[5], inst[12:10], inst[6]. -/
def immCLOf (h : Parcel) : BitVec 5 :=
  h.extractLsb' 5 1 ++ h.extractLsb' 10 3 ++ h.extractLsb' 6 1

/-- R89: inst[12], inst[6:2]. -/
def immCIOf (h : Parcel) : BitVec 6 := h.extractLsb' 12 1 ++ h.extractLsb' 2 5

/-- R91 without its bit 0: inst[12], inst[8], inst[10:9], inst[6], inst[7], inst[2], inst[11],
inst[5:3]. -/
def immCJOf (h : Parcel) : BitVec 11 :=
  h.extractLsb' 12 1 ++ h.extractLsb' 8 1 ++ h.extractLsb' 9 2 ++ h.extractLsb' 6 1 ++
    h.extractLsb' 7 1 ++ h.extractLsb' 2 1 ++ h.extractLsb' 11 1 ++ h.extractLsb' 3 3

/-! ## The decoder -/

/-- Opcode 1100011 (R93; 42_branches.md R147). -/
def decodeBranch (w : Word) : Except Reject Instr :=
  match funct3Of w with
  | 0b000#3 => .ok (.beq (rs1Of w) (rs2Of w) (immBOf w))
  | 0b001#3 => .ok (.bne (rs1Of w) (rs2Of w) (immBOf w))
  | 0b100#3 => .ok (.blt (rs1Of w) (rs2Of w) (immBOf w))
  | 0b101#3 => .ok (.bge (rs1Of w) (rs2Of w) (immBOf w))
  | 0b110#3 => .ok (.bltu (rs1Of w) (rs2Of w) (immBOf w))
  | 0b111#3 => .ok (.bgeu (rs1Of w) (rs2Of w) (immBOf w))
  | _ => .error .unlistedFunction

/-- Opcode 0000011 (R93; 43_loads.md R156). -/
def decodeLoad (w : Word) : Except Reject Instr :=
  match funct3Of w with
  | 0b000#3 => .ok (.lb (rdOf w) (rs1Of w) (immIOf w))
  | 0b001#3 => .ok (.lh (rdOf w) (rs1Of w) (immIOf w))
  | 0b010#3 => .ok (.lw (rdOf w) (rs1Of w) (immIOf w))
  | 0b100#3 => .ok (.lbu (rdOf w) (rs1Of w) (immIOf w))
  | 0b101#3 => .ok (.lhu (rdOf w) (rs1Of w) (immIOf w))
  | _ => .error .unlistedFunction

/-- Opcode 0100011 (R93; 44_stores.md R164). -/
def decodeStore (w : Word) : Except Reject Instr :=
  match funct3Of w with
  | 0b000#3 => .ok (.sb (rs1Of w) (rs2Of w) (immSOf w))
  | 0b001#3 => .ok (.sh (rs1Of w) (rs2Of w) (immSOf w))
  | 0b010#3 => .ok (.sw (rs1Of w) (rs2Of w) (immSOf w))
  | _ => .error .unlistedFunction

/-- Opcode 0010011 with funct3 001: bits 31:25 are part of the match (R78; 45_op_imm.md R181). -/
def decodeShiftLeftImm (w : Word) : Except Reject Instr :=
  match funct7Of w with
  | 0b0000000#7 => .ok (.slli (rdOf w) (rs1Of w) (shamtOf w))
  | _ => .error .unlistedFunction

/-- Opcode 0010011 with funct3 101: bits 31:25 are part of the match (R78; 45_op_imm.md R181). -/
def decodeShiftRightImm (w : Word) : Except Reject Instr :=
  match funct7Of w with
  | 0b0000000#7 => .ok (.srli (rdOf w) (rs1Of w) (shamtOf w))
  | 0b0100000#7 => .ok (.srai (rdOf w) (rs1Of w) (shamtOf w))
  | _ => .error .unlistedFunction

/-- Opcode 0010011 (R93). -/
def decodeOpImm (w : Word) : Except Reject Instr :=
  match funct3Of w with
  | 0b000#3 => .ok (.addi (rdOf w) (rs1Of w) (immIOf w))
  | 0b001#3 => decodeShiftLeftImm w
  | 0b010#3 => .ok (.slti (rdOf w) (rs1Of w) (immIOf w))
  | 0b011#3 => .ok (.sltiu (rdOf w) (rs1Of w) (immIOf w))
  | 0b100#3 => .ok (.xori (rdOf w) (rs1Of w) (immIOf w))
  | 0b101#3 => decodeShiftRightImm w
  | 0b110#3 => .ok (.ori (rdOf w) (rs1Of w) (immIOf w))
  | 0b111#3 => .ok (.andi (rdOf w) (rs1Of w) (immIOf w))
  | _ => .error .unlistedFunction

/-- Opcode 0110011 (R93; 46_op.md R202). -/
def decodeOp (w : Word) : Except Reject Instr :=
  match funct7Of w, funct3Of w with
  | 0b0000000#7, 0b000#3 => .ok (.add (rdOf w) (rs1Of w) (rs2Of w))
  | 0b0100000#7, 0b000#3 => .ok (.sub (rdOf w) (rs1Of w) (rs2Of w))
  | 0b0000000#7, 0b001#3 => .ok (.sll (rdOf w) (rs1Of w) (rs2Of w))
  | 0b0000000#7, 0b010#3 => .ok (.slt (rdOf w) (rs1Of w) (rs2Of w))
  | 0b0000000#7, 0b011#3 => .ok (.sltu (rdOf w) (rs1Of w) (rs2Of w))
  | 0b0000000#7, 0b100#3 => .ok (.xor (rdOf w) (rs1Of w) (rs2Of w))
  | 0b0000000#7, 0b101#3 => .ok (.srl (rdOf w) (rs1Of w) (rs2Of w))
  | 0b0100000#7, 0b101#3 => .ok (.sra (rdOf w) (rs1Of w) (rs2Of w))
  | 0b0000000#7, 0b110#3 => .ok (.or (rdOf w) (rs1Of w) (rs2Of w))
  | 0b0000000#7, 0b111#3 => .ok (.and (rdOf w) (rs1Of w) (rs2Of w))
  | _, _ => .error .unlistedFunction

/-- Opcode 1100111: only funct3 000 (R100). -/
def decodeJalr (w : Word) : Except Reject Instr :=
  match funct3Of w with
  | 0b000#3 => .ok (.jalr (rdOf w) (rs1Of w) (immIOf w))
  | _ => .error .unlistedFunction

/-- Opcode 0001111: only funct3 000; the other five fields take every value (R79;
47_fence_system.md R210, R213). -/
def decodeFence (w : Word) : Except Reject Instr :=
  match funct3Of w with
  | 0b000#3 =>
    .ok (.fence (w.extractLsb' 28 4) (w.extractLsb' 24 4) (w.extractLsb' 20 4) (rs1Of w) (rdOf w))
  | _ => .error .unlistedFunction

/-- Opcode 1110011: only the two words of R80 (47_fence_system.md R213). -/
def decodeSystem (w : Word) : Except Reject Instr :=
  match w with
  | 0x00000073#32 => .ok .ecall
  | 0x00100073#32 => .ok .ebreak
  | _ => .error .unlistedFunction

/-- R71 for a 32-bit word: the row of R93 the word matches, or no instruction (R100). -/
def decode32 (w : Word) : Except Reject Instr :=
  match opcodeOf w with
  | 0b0110111#7 => .ok (.lui (rdOf w) (immUOf w))
  | 0b0010111#7 => .ok (.auipc (rdOf w) (immUOf w))
  | 0b1101111#7 => .ok (.jal (rdOf w) (immJOf w))
  | 0b1100111#7 => decodeJalr w
  | 0b1100011#7 => decodeBranch w
  | 0b0000011#7 => decodeLoad w
  | 0b0100011#7 => decodeStore w
  | 0b0010011#7 => decodeOpImm w
  | 0b0110011#7 => decodeOp w
  | 0b0001111#7 => decodeFence w
  | 0b1110011#7 => decodeSystem w
  | _ => .error .unlistedOpcode

/-- R94 rows 1 and 3: bits 15:13 = 000, bits 1:0 = 00. The all-zero parcel is tried first. -/
def decodeQ0F0 (h : Parcel) : Except Reject Instr :=
  if h = 0x0000#16 then .ok .cIllegal
  else if immCIWOf h ≠ 0#8 then .ok (.cAddi4spn (cLowRegOf h) (immCIWOf h))
  else .error .constraintFails

/-- R94 rows 2 and 7: bits 15:13 = 000, bits 1:0 = 01. C.NOP is tried first. -/
def decodeQ1F0 (h : Parcel) : Except Reject Instr :=
  if h = 0x0001#16 then .ok .cNop
  else if cRdOf h ≠ 0#5 ∧ immCIOf h ≠ 0#6 then .ok (.cAddi (cRdOf h) (immCIOf h))
  else .error .constraintFails

/-- R94 row 9: bits 15:13 = 010, bits 1:0 = 01. -/
def decodeQ1F2 (h : Parcel) : Except Reject Instr :=
  if cRdOf h ≠ 0#5 then .ok (.cLi (cRdOf h) (immCIOf h))
  else .error .constraintFails

/-- R71 for a parcel: the row of R94 it matches with its constraint, or no instruction (R100, R101). -/
def decode16 (h : Parcel) : Except Reject Instr :=
  match h.extractLsb' 13 3, h.extractLsb' 0 2 with
  | 0b000#3, 0b00#2 => decodeQ0F0 h
  | 0b010#3, 0b00#2 => .ok (.cLw (cLowRegOf h) (cRs1Of h) (immCLOf h))
  | 0b100#3, 0b00#2 => .ok (.cReserved (h.extractLsb' 2 11))
  | 0b110#3, 0b00#2 => .ok (.cSw (cRs1Of h) (cLowRegOf h) (immCLOf h))
  | 0b000#3, 0b01#2 => decodeQ1F0 h
  | 0b001#3, 0b01#2 => .ok (.cJal (immCJOf h))
  | 0b010#3, 0b01#2 => decodeQ1F2 h
  | _, _ => .error .unlistedParcel

/-- R71: total on every fetched parcel or word. -/
def decode : InstWord → Except Reject Instr
  | .parcel h => decode16 h
  | .word w => decode32 w

/-- The instruction at the head of some bytes, and the bytes after it: the first parcel tells the length
(R70), the byte at the lower address is the less significant one (20_memory.md R43). -/
def decodeBytes : List Byte → Except Reject (Instr × List Byte)
  | b0 :: b1 :: rest =>
    if isLong (b1 ++ b0) then
      match rest with
      | b2 :: b3 :: rest' => (decode32 (b3 ++ b2 ++ b1 ++ b0)).map (·, rest')
      | _ => .error .tooFewBytes
    else (decode16 (b1 ++ b0)).map (·, rest)
  | _ => .error .tooFewBytes

/-- The four bytes of a 32-bit value, in the order of their addresses (20_memory.md R43). -/
def bytesOfWord (w : Word) : List Byte :=
  [w.extractLsb' 0 8, w.extractLsb' 8 8, w.extractLsb' 16 8, w.extractLsb' 24 8]

/-- The instruction the decoder reads from the bits `w` of an opcode-table row of `nbits` bits, every
bit above `nbits` zero. -/
def decodeTableWord (nbits w : Nat) : Option Instr :=
  match decodeBytes (bytesOfWord (BitVec.ofNat 32 (w % 2 ^ nbits))) with
  | .ok (i, _) => some i
  | .error _ => none

/-! ## The encoder: the formats R72 to R79, most significant field first -/

def packR (f7 : BitVec 7) (rs2 rs1 : RegIdx) (f3 : BitVec 3) (rd : RegIdx) (op : BitVec 7) : Word :=
  f7 ++ rs2 ++ rs1 ++ f3 ++ rd ++ op

def packI (imm : BitVec 12) (rs1 : RegIdx) (f3 : BitVec 3) (rd : RegIdx) (op : BitVec 7) : Word :=
  imm ++ rs1 ++ f3 ++ rd ++ op

def packS (imm : BitVec 12) (rs2 rs1 : RegIdx) (f3 : BitVec 3) (op : BitVec 7) : Word :=
  imm.extractLsb' 5 7 ++ rs2 ++ rs1 ++ f3 ++ imm.extractLsb' 0 5 ++ op

/-- `imm` is offset[12:1]: its bit 11 is offset bit 12, its bit 10 offset bit 11. -/
def packB (imm : BitVec 12) (rs2 rs1 : RegIdx) (f3 : BitVec 3) (op : BitVec 7) : Word :=
  imm.extractLsb' 11 1 ++ imm.extractLsb' 4 6 ++ rs2 ++ rs1 ++ f3 ++
    imm.extractLsb' 0 4 ++ imm.extractLsb' 10 1 ++ op

def packU (imm : BitVec 20) (rd : RegIdx) (op : BitVec 7) : Word := imm ++ rd ++ op

/-- `imm` is offset[20:1]: its bit 19 is offset bit 20, its bit 10 offset bit 11. -/
def packJ (imm : BitVec 20) (rd : RegIdx) (op : BitVec 7) : Word :=
  imm.extractLsb' 19 1 ++ imm.extractLsb' 0 10 ++ imm.extractLsb' 10 1 ++ imm.extractLsb' 11 8 ++
    rd ++ op

def packFence (fm pred succ : BitVec 4) (rs1 : RegIdx) (f3 : BitVec 3) (rd : RegIdx) (op : BitVec 7) :
    Word :=
  fm ++ pred ++ succ ++ rs1 ++ f3 ++ rd ++ op

/-- R87: `imm` is nzuimm[9:2]. -/
def packCIW (f3 : BitVec 3) (imm : BitVec 8) (rd : CRegIdx) (op : BitVec 2) : Parcel :=
  f3 ++ imm.extractLsb' 2 2 ++ imm.extractLsb' 4 4 ++ imm.extractLsb' 0 1 ++ imm.extractLsb' 1 1 ++
    rd ++ op

/-- R88: `imm` is uimm[6:2]; `r` is rd' or rs2'. -/
def packCL (f3 : BitVec 3) (imm : BitVec 5) (rs1 r : CRegIdx) (op : BitVec 2) : Parcel :=
  f3 ++ imm.extractLsb' 1 3 ++ rs1 ++ imm.extractLsb' 0 1 ++ imm.extractLsb' 4 1 ++ r ++ op

/-- R89. -/
def packCI (f3 : BitVec 3) (imm : BitVec 6) (rd : RegIdx) (op : BitVec 2) : Parcel :=
  f3 ++ imm.extractLsb' 5 1 ++ rd ++ imm.extractLsb' 0 5 ++ op

/-- R91: `imm` is offset[11:1]. -/
def packCJ (f3 : BitVec 3) (imm : BitVec 11) (op : BitVec 2) : Parcel :=
  f3 ++ imm.extractLsb' 10 1 ++ imm.extractLsb' 3 1 ++ imm.extractLsb' 7 2 ++ imm.extractLsb' 9 1 ++
    imm.extractLsb' 5 1 ++ imm.extractLsb' 6 1 ++ imm.extractLsb' 0 3 ++ imm.extractLsb' 4 1 ++ op

/-- 48_compressed.md R223. -/
def packReserved (bits : BitVec 11) : Parcel := 0b100#3 ++ bits ++ 0b00#2

/-- The word or parcel of a well-formed instruction (R93, R94). -/
def encode : Instr → InstWord
  | .lui rd imm => .word (packU imm rd 0b0110111#7)
  | .auipc rd imm => .word (packU imm rd 0b0010111#7)
  | .jal rd imm => .word (packJ imm rd 0b1101111#7)
  | .jalr rd rs1 imm => .word (packI imm rs1 0b000#3 rd 0b1100111#7)
  | .beq rs1 rs2 imm => .word (packB imm rs2 rs1 0b000#3 0b1100011#7)
  | .bne rs1 rs2 imm => .word (packB imm rs2 rs1 0b001#3 0b1100011#7)
  | .blt rs1 rs2 imm => .word (packB imm rs2 rs1 0b100#3 0b1100011#7)
  | .bge rs1 rs2 imm => .word (packB imm rs2 rs1 0b101#3 0b1100011#7)
  | .bltu rs1 rs2 imm => .word (packB imm rs2 rs1 0b110#3 0b1100011#7)
  | .bgeu rs1 rs2 imm => .word (packB imm rs2 rs1 0b111#3 0b1100011#7)
  | .lb rd rs1 imm => .word (packI imm rs1 0b000#3 rd 0b0000011#7)
  | .lh rd rs1 imm => .word (packI imm rs1 0b001#3 rd 0b0000011#7)
  | .lw rd rs1 imm => .word (packI imm rs1 0b010#3 rd 0b0000011#7)
  | .lbu rd rs1 imm => .word (packI imm rs1 0b100#3 rd 0b0000011#7)
  | .lhu rd rs1 imm => .word (packI imm rs1 0b101#3 rd 0b0000011#7)
  | .sb rs1 rs2 imm => .word (packS imm rs2 rs1 0b000#3 0b0100011#7)
  | .sh rs1 rs2 imm => .word (packS imm rs2 rs1 0b001#3 0b0100011#7)
  | .sw rs1 rs2 imm => .word (packS imm rs2 rs1 0b010#3 0b0100011#7)
  | .addi rd rs1 imm => .word (packI imm rs1 0b000#3 rd 0b0010011#7)
  | .slti rd rs1 imm => .word (packI imm rs1 0b010#3 rd 0b0010011#7)
  | .sltiu rd rs1 imm => .word (packI imm rs1 0b011#3 rd 0b0010011#7)
  | .xori rd rs1 imm => .word (packI imm rs1 0b100#3 rd 0b0010011#7)
  | .ori rd rs1 imm => .word (packI imm rs1 0b110#3 rd 0b0010011#7)
  | .andi rd rs1 imm => .word (packI imm rs1 0b111#3 rd 0b0010011#7)
  | .slli rd rs1 shamt => .word (packR 0b0000000#7 shamt rs1 0b001#3 rd 0b0010011#7)
  | .srli rd rs1 shamt => .word (packR 0b0000000#7 shamt rs1 0b101#3 rd 0b0010011#7)
  | .srai rd rs1 shamt => .word (packR 0b0100000#7 shamt rs1 0b101#3 rd 0b0010011#7)
  | .add rd rs1 rs2 => .word (packR 0b0000000#7 rs2 rs1 0b000#3 rd 0b0110011#7)
  | .sub rd rs1 rs2 => .word (packR 0b0100000#7 rs2 rs1 0b000#3 rd 0b0110011#7)
  | .sll rd rs1 rs2 => .word (packR 0b0000000#7 rs2 rs1 0b001#3 rd 0b0110011#7)
  | .slt rd rs1 rs2 => .word (packR 0b0000000#7 rs2 rs1 0b010#3 rd 0b0110011#7)
  | .sltu rd rs1 rs2 => .word (packR 0b0000000#7 rs2 rs1 0b011#3 rd 0b0110011#7)
  | .xor rd rs1 rs2 => .word (packR 0b0000000#7 rs2 rs1 0b100#3 rd 0b0110011#7)
  | .srl rd rs1 rs2 => .word (packR 0b0000000#7 rs2 rs1 0b101#3 rd 0b0110011#7)
  | .sra rd rs1 rs2 => .word (packR 0b0100000#7 rs2 rs1 0b101#3 rd 0b0110011#7)
  | .or rd rs1 rs2 => .word (packR 0b0000000#7 rs2 rs1 0b110#3 rd 0b0110011#7)
  | .and rd rs1 rs2 => .word (packR 0b0000000#7 rs2 rs1 0b111#3 rd 0b0110011#7)
  | .fence fm pred succ rs1 rd => .word (packFence fm pred succ rs1 0b000#3 rd 0b0001111#7)
  | .ecall => .word 0x00000073#32
  | .ebreak => .word 0x00100073#32
  | .cIllegal => .parcel 0x0000#16
  | .cNop => .parcel 0x0001#16
  | .cAddi4spn rd nzuimm => .parcel (packCIW 0b000#3 nzuimm rd 0b00#2)
  | .cLw rd rs1 uimm => .parcel (packCL 0b010#3 uimm rs1 rd 0b00#2)
  | .cReserved bits => .parcel (packReserved bits)
  | .cSw rs1 rs2 uimm => .parcel (packCL 0b110#3 uimm rs1 rs2 0b00#2)
  | .cAddi rd nzimm => .parcel (packCI 0b000#3 nzimm rd 0b01#2)
  | .cJal imm => .parcel (packCJ 0b001#3 imm 0b01#2)
  | .cLi rd imm => .parcel (packCI 0b010#3 imm rd 0b01#2)

/-- The bytes of a parcel or word, in the order of their addresses (20_memory.md R43). -/
def InstWord.bytes : InstWord → List Byte
  | .parcel h => [h.extractLsb' 0 8, h.extractLsb' 8 8]
  | .word w => bytesOfWord w

/-- The bytes of an instruction as they lie in memory. -/
def encodeBytes (i : Instr) : List Byte := (encode i).bytes

end Sys2Proof
end

