-- ==== Sys2Proof/Machine/Compressed.lean ====
section
/-! DEFINITION. The 16-bit rows: spec/48_compressed.md. Their `ilen` is 2 (R220). -/

namespace Sys2Proof.Machine

/-- R222: `raise IllegalInstruction(0x0000)`. -/
def execCIllegal (s : State) : Result := .next (s.raise ⟨.illegalInstruction, 0#32⟩)

/-- R227. -/
def execCNop (s : State) : Result := .next (s.advance 2#32)

/-- R224: the base is x2. -/
def execCAddi4spn (rd : CRegIdx) (nzuimm : BitVec 8) (s : State) : Result :=
  s.writeReg (cReg rd) (s.getX 2#5 + immCIW nzuimm) 2#32

/-- R225. -/
def execCLw (rd rs1 : CRegIdx) (uimm : BitVec 5) (s : State) : Result :=
  s.load (cReg rd) (s.baseDisp (cReg rs1) (immCL uimm)) .word id 2#32

/-- R223: `raise IllegalInstruction(inst)`, the value the parcel zero-extended (60_exceptions.md R250). -/
def execCReserved (bits : BitVec 11) (s : State) : Result :=
  .next (s.raise ⟨.illegalInstruction, (packReserved bits).setWidth 32⟩)

/-- R226. -/
def execCSw (rs1 rs2 : CRegIdx) (uimm : BitVec 5) (s : State) : Result :=
  s.store (s.baseDisp (cReg rs1) (immCL uimm)) .word (s.getX (cReg rs2)) 2#32

/-- R228. -/
def execCAddi (rd : RegIdx) (nzimm : BitVec 6) (s : State) : Result :=
  s.writeReg rd (s.getX rd + immCI nzimm) 2#32

/-- R229: the link value is pc + 2 (90_conflicts.md C6). -/
def execCJal (imm : BitVec 11) (s : State) : Result :=
  s.linkAndJump 1#5 (s.pc + offsetCJ imm) 2#32

/-- R230. -/
def execCLi (rd : RegIdx) (imm : BitVec 6) (s : State) : Result :=
  s.writeReg rd (immCI imm) 2#32

end Sys2Proof.Machine
end

