-- ==== Sys2Proof/Machine/Jumps.lean ====
section
/-! DEFINITION. JAL, JALR: spec/41_jumps.md. -/

namespace Sys2Proof.Machine

/-- R130. -/
def execJal (rd : RegIdx) (imm : BitVec 20) (s : State) : Result :=
  s.linkAndJump rd (s.pc + offsetJ imm) 4#32

/-- R131: the target is computed from the old x[rs1]. -/
def execJalr (rd rs1 : RegIdx) (imm : BitVec 12) (s : State) : Result :=
  s.linkAndJump rd (s.jalrTarget rs1 imm) 4#32

end Sys2Proof.Machine
end

