-- ==== Sys2Proof/Machine/Loads.lean ====
section
/-! DEFINITION. LB, LH, LW, LBU, LHU: spec/43_loads.md. -/

namespace Sys2Proof.Machine

/-- R151. -/
def execLb (rd rs1 : RegIdx) (imm : BitVec 12) (s : State) : Result :=
  s.load rd (s.baseDisp rs1 (imm12 imm)) .byte (BitVec.signExtend 32) 4#32

/-- R152. -/
def execLh (rd rs1 : RegIdx) (imm : BitVec 12) (s : State) : Result :=
  s.load rd (s.baseDisp rs1 (imm12 imm)) .half (BitVec.signExtend 32) 4#32

/-- R153. -/
def execLw (rd rs1 : RegIdx) (imm : BitVec 12) (s : State) : Result :=
  s.load rd (s.baseDisp rs1 (imm12 imm)) .word id 4#32

/-- R154. -/
def execLbu (rd rs1 : RegIdx) (imm : BitVec 12) (s : State) : Result :=
  s.load rd (s.baseDisp rs1 (imm12 imm)) .byte (BitVec.setWidth 32) 4#32

/-- R155. -/
def execLhu (rd rs1 : RegIdx) (imm : BitVec 12) (s : State) : Result :=
  s.load rd (s.baseDisp rs1 (imm12 imm)) .half (BitVec.setWidth 32) 4#32

end Sys2Proof.Machine
end

