-- ==== Sys2Proof/Machine/Op.lean ====
section
/-! DEFINITION. ADD, SUB, SLL, SLT, SLTU, XOR, SRL, SRA, OR, AND: spec/46_op.md. -/

namespace Sys2Proof.Machine

/-- R191. -/
def execAdd (rd rs1 rs2 : RegIdx) (s : State) : Result :=
  s.writeReg rd (s.getX rs1 + s.getX rs2) 4#32

/-- R192: rs1 minus rs2. -/
def execSub (rd rs1 rs2 : RegIdx) (s : State) : Result :=
  s.writeReg rd (s.getX rs1 - s.getX rs2) 4#32

/-- R193. -/
def execSll (rd rs1 rs2 : RegIdx) (s : State) : Result :=
  s.writeReg rd (s.getX rs1 <<< (shiftAmount (s.getX rs2)).toNat) 4#32

/-- R194. -/
def execSlt (rd rs1 rs2 : RegIdx) (s : State) : Result :=
  s.writeReg rd (oneOrZero (isLtS (s.getX rs1) (s.getX rs2))) 4#32

/-- R195. -/
def execSltu (rd rs1 rs2 : RegIdx) (s : State) : Result :=
  s.writeReg rd (oneOrZero (isLtU (s.getX rs1) (s.getX rs2))) 4#32

/-- R196. -/
def execXor (rd rs1 rs2 : RegIdx) (s : State) : Result :=
  s.writeReg rd (s.getX rs1 ^^^ s.getX rs2) 4#32

/-- R197. -/
def execSrl (rd rs1 rs2 : RegIdx) (s : State) : Result :=
  s.writeReg rd (s.getX rs1 >>> (shiftAmount (s.getX rs2)).toNat) 4#32

/-- R198. -/
def execSra (rd rs1 rs2 : RegIdx) (s : State) : Result :=
  s.writeReg rd ((s.getX rs1).sshiftRight (shiftAmount (s.getX rs2)).toNat) 4#32

/-- R199. -/
def execOr (rd rs1 rs2 : RegIdx) (s : State) : Result :=
  s.writeReg rd (s.getX rs1 ||| s.getX rs2) 4#32

/-- R200. -/
def execAnd (rd rs1 rs2 : RegIdx) (s : State) : Result :=
  s.writeReg rd (s.getX rs1 &&& s.getX rs2) 4#32

end Sys2Proof.Machine
end

