-- ==== Sys2Proof/Machine/OpImm.lean ====
section
/-! DEFINITION. ADDI, SLTI, SLTIU, XORI, ORI, ANDI, SLLI, SRLI, SRAI: spec/45_op_imm.md. The immediate is
sign-extended in all six of R170. -/

namespace Sys2Proof.Machine

/-- R171. -/
def execAddi (rd rs1 : RegIdx) (imm : BitVec 12) (s : State) : Result :=
  s.writeReg rd (s.getX rs1 + imm12 imm) 4#32

/-- R172. -/
def execSlti (rd rs1 : RegIdx) (imm : BitVec 12) (s : State) : Result :=
  s.writeReg rd (oneOrZero (isLtS (s.getX rs1) (imm12 imm))) 4#32

/-- R173: the sign-extended immediate read as an unsigned number. -/
def execSltiu (rd rs1 : RegIdx) (imm : BitVec 12) (s : State) : Result :=
  s.writeReg rd (oneOrZero (isLtU (s.getX rs1) (imm12 imm))) 4#32

/-- R174. -/
def execXori (rd rs1 : RegIdx) (imm : BitVec 12) (s : State) : Result :=
  s.writeReg rd (s.getX rs1 ^^^ imm12 imm) 4#32

/-- R175. -/
def execOri (rd rs1 : RegIdx) (imm : BitVec 12) (s : State) : Result :=
  s.writeReg rd (s.getX rs1 ||| imm12 imm) 4#32

/-- R176. -/
def execAndi (rd rs1 : RegIdx) (imm : BitVec 12) (s : State) : Result :=
  s.writeReg rd (s.getX rs1 &&& imm12 imm) 4#32

/-- R178. -/
def execSlli (rd rs1 : RegIdx) (shamt : BitVec 5) (s : State) : Result :=
  s.writeReg rd (s.getX rs1 <<< shamt.toNat) 4#32

/-- R179. -/
def execSrli (rd rs1 : RegIdx) (shamt : BitVec 5) (s : State) : Result :=
  s.writeReg rd (s.getX rs1 >>> shamt.toNat) 4#32

/-- R180. -/
def execSrai (rd rs1 : RegIdx) (shamt : BitVec 5) (s : State) : Result :=
  s.writeReg rd ((s.getX rs1).sshiftRight shamt.toNat) 4#32

end Sys2Proof.Machine
end

