-- ==== Sys2Proof/Machine/Stores.lean ====
section
/-! DEFINITION. SB, SH, SW: spec/44_stores.md. -/

namespace Sys2Proof.Machine

/-- R161: the low 8 bits of rs2. -/
def execSb (rs1 rs2 : RegIdx) (imm : BitVec 12) (s : State) : Result :=
  s.store (s.baseDisp rs1 (imm12 imm)) .byte ((s.getX rs2).setWidth 8) 4#32

/-- R162: the low 16 bits of rs2. -/
def execSh (rs1 rs2 : RegIdx) (imm : BitVec 12) (s : State) : Result :=
  s.store (s.baseDisp rs1 (imm12 imm)) .half ((s.getX rs2).setWidth 16) 4#32

/-- R163. -/
def execSw (rs1 rs2 : RegIdx) (imm : BitVec 12) (s : State) : Result :=
  s.store (s.baseDisp rs1 (imm12 imm)) .word (s.getX rs2) 4#32

end Sys2Proof.Machine
end

