-- ==== Sys2Proof/Machine/System.lean ====
section
/-! DEFINITION. FENCE, ECALL, EBREAK: spec/47_fence_system.md. -/

namespace Sys2Proof.Machine

/-- R210: no register and no byte of memory changes, whatever the five fields hold. -/
def execFence (_fm _pred _succ : BitVec 4) (_rs1 _rd : RegIdx) (s : State) : Result :=
  .next (s.advance 4#32)

/-- R211: `raise EnvironmentCall(0)`. -/
def execEcall (s : State) : Result := .next (s.raise ⟨.environmentCall, 0#32⟩)

/-- R212: `raise Breakpoint(pc)`. -/
def execEbreak (s : State) : Result := .next (s.raise ⟨.breakpoint, s.pc⟩)

end Sys2Proof.Machine
end

