-- ==== Sys2Proof/Machine/UpperImmediate.lean ====
section
/-! DEFINITION. LUI, AUIPC: spec/40_upper_immediate.md. -/

namespace Sys2Proof.Machine

/-- R120. -/
def execLui (rd : RegIdx) (imm : BitVec 20) (s : State) : Result :=
  s.writeReg rd (immU imm) 4#32

/-- R121: the value added is the address of the AUIPC itself. -/
def execAuipc (rd : RegIdx) (imm : BitVec 20) (s : State) : Result :=
  s.writeReg rd (s.pc + immU imm) 4#32

end Sys2Proof.Machine
end

