-- ==== Sys2Proof/Machine/Fetch.lean ====
section
/-! DEFINITION. Instruction fetch: spec/20_memory.md R55, R56. -/

namespace Sys2Proof.Machine

/-- What fetching at `pc` gives. -/
inductive Fetched
  /-- The parcel or word at `pc`. -/
  | got (i : InstWord)
  /-- A byte of a parcel lacks execute permission: InstructionAccessFault (R55). -/
  | noPermission
  /-- A byte of a parcel is in `dirty` (R56). -/
  | modified
  deriving DecidableEq, Repr

/-- One parcel of the instruction stream: permission first; DEDUCED (safe, log entry 6): a parcel is
examined for `dirty` before its bits are used. -/
def State.fetchParcel (s : State) (a : Word) (k : Parcel → Fetched) : Fetched :=
  if mapAllowsAll s.memMap .execute a 2 = false then .noPermission
  else if dirtyAny s.dirty a 2 then .modified
  else k (s.mem.readLE a .half)

/-- R55: the first parcel at `pc`; where its bits 1:0 are 11, the second at `pc + 2` modulo 2^32. -/
def State.fetch (s : State) : Fetched :=
  s.fetchParcel s.pc fun lo =>
    if isLong lo then s.fetchParcel (s.pc + 2#32) fun hi => .got (.word (hi ++ lo))
    else .got (.parcel lo)

/-- The value of IllegalInstruction: the fetched bits, zero-extended to 32 (60_exceptions.md R253). -/
def instValue : InstWord → Word
  | .parcel h => h.setWidth 32
  | .word w => w

/-- Decode, or take IllegalInstruction with the fetched bits as value (30_encoding.md R71, R100). -/
def State.decodeFetched (s : State) (run : Instr → State → Result) (iw : InstWord) : Result :=
  match decode iw with
  | .ok i => run i s
  | .error _ => .next (s.raise ⟨.illegalInstruction, instValue iw⟩)

/-- One step of a running hart (10_state.md R36), `run` giving the instructions their meaning. -/
def State.stepWith (s : State) (run : Instr → State → Result) : Result :=
  match s.fetch with
  | .got iw => s.decodeFetched run iw
  | .noPermission => .next (s.raise ⟨.instructionAccessFault, s.pc⟩)
  | .modified => .refused (.selfModifyingCode s.pc)

/-- Four bytes put at `pc`, outside `dirty` and executable, in a running hart: see State.withFetchWord. -/
def State.placeWord (s : State) (w : Word) : State :=
  { s with
    halt := .running
    mem := s.mem.writeLE s.pc .word w
    dirty := s.dirty.filter (fun a => !((touched s.pc 4).map BitVec.toNat).contains a)
    memMap := if mapAllowsAll s.memMap .execute s.pc 4 then s.memMap else Config.defaultMemMap }

end Sys2Proof.Machine
end

