-- ==== Sys2Proof/Machine/Step.lean ====
section
/-! DEFINITION. The step function: spec/10_state.md R36. -/

namespace Sys2Proof.Machine

/-- One step. A halted hart takes no further step (R34, 60_exceptions.md R256). -/
def step (s : State) : Host.Outcome State Fault Refusal :=
  match s.halt with
  | .running => s.stepWith exec
  | .halted _ _ _ => .fault .hartHalted

/-- The instruction whose bits are `w` (every bit above `nbits` zero), four bytes at `pc`, ready to be
fetched: it stands for the host's placing of code in `MEM_INIT` (70_reset_and_hazards.md R292, log
entry 8). -/
def State.withFetchWord (s : State) (nbits w : Nat) : State :=
  s.placeWord (BitVec.ofNat 32 (w % 2 ^ nbits))

end Sys2Proof.Machine
end

