-- ==== Sys2Proof/Safety.lean ====
section
/-! DEFINITION. The terms the statements use: what a good state is, what an instruction changes and leaves
unchanged, and the row lists of spec/30_encoding.md R93 and R94 as data. Nothing here is used by the
machine. -/

namespace Sys2Proof.Machine

/-! ## Good states -/

/-- The halt record agrees with the state (60_exceptions.md R256): the recorded address is `pc`, and the
cause is not the one that is never raised (R251). -/
def haltWf (s : State) : Prop :=
  ∀ c epc v, s.halt = .halted c epc v → epc = s.pc ∧ c ≠ .instructionAddressMisaligned

/-- What holds in every reachable state: memory and `dirty` in canonical form, `pc` even (10_state.md R27),
`MEM_MAP` as R50 of 20_memory.md wants it, the halt record as R256 writes it. -/
structure Inv (s : State) : Prop where
  mem_wf : s.mem.wf
  dirty_wf : dirtyWf s.dirty
  pc_even : s.pc.toNat % 2 = 0
  map_wf : mapWf s.memMap
  halt_wf : haltWf s

/-- The parameters are ones the spec allows: `RESET_PC` even (R35), `MEM_INIT` canonical, `MEM_MAP` legal
(R50). -/
structure BootParams.Legal (p : BootParams) : Prop where
  pc_even : p.resetPc.toNat % 2 = 0
  mem_wf : p.memInit.wf
  map_wf : mapWf p.memMap

/-- What a run started with the parameters `p` keeps of what was loaded: the map, and every byte that no
store has written (20_memory.md R53, R56, 70_reset_and_hazards.md R292). -/
structure LoadedKept (p : BootParams) (t : State) : Prop where
  map_eq : t.memMap = p.memMap
  clean_eq : ∀ a : Word, a.toNat ∉ t.dirty → t.mem.byteAt a = p.memInit.byteAt a

/-- The run has ended normally (60_exceptions.md R263). -/
def endedNormally (s : State) : Prop := ∃ epc v, s.halt = .halted .environmentCall epc v

/-- `t` is reached from `s` by steps that each answer a next state. -/
inductive Reaches (s : State) : State → Prop
  | refl : Reaches s s
  | step {t u : State} : Reaches s t → step t = .next u → Reaches s u

/-! ## Frames -/

/-- Everything but `pc`, the registers, memory and `dirty` is as before. -/
def sameRest (s t : State) : Prop := t.halt = s.halt ∧ t.memMap = s.memMap ∧ t.mode = s.mode

/-- Every byte of memory reads as before and `dirty` is as before. -/
def sameMemory (s t : State) : Prop :=
  (∀ a : Word, t.mem.byteAt a = s.mem.byteAt a) ∧ t.dirty = s.dirty

/-- Every register reads as before. -/
def sameRegs (s t : State) : Prop := ∀ r : RegIdx, t.getX r = s.getX r

/-- Only `pc` may differ. -/
def onlyPc (s t : State) : Prop := sameRegs s t ∧ sameMemory s t ∧ sameRest s t

/-- Only `pc` and register `rd` may differ; `rd` reads as `v`, x0 as 0 whatever `rd` is
(10_state.md R22). -/
def onlyReg (s t : State) (rd : RegIdx) (v : Word) : Prop :=
  (∀ r : RegIdx, t.getX r = if r = 0#5 then 0#32 else if r = rd then v else s.getX r) ∧
    sameMemory s t ∧ sameRest s t

/-- Only `pc` and the `n` bytes at `addr` may differ; they hold `v` little-endian and are in `dirty`
(20_memory.md R45). The offset of a byte from `addr` is taken modulo 2^32 (R42). -/
def onlyBytes (s t : State) (addr : Word) (n : Nat) (v : Nat) : Prop :=
  sameRegs s t ∧ sameRest s t ∧
    (∀ a : Word, (t.mem.byteAt a).toNat =
      if (a - addr).toNat < n then v / 256 ^ (a - addr).toNat % 256 else (s.mem.byteAt a).toNat) ∧
    ∀ a : Word, a.toNat ∈ t.dirty ↔ (a - addr).toNat < n ∨ a.toNat ∈ s.dirty

/-- The little-endian value of the `n` bytes at `addr` (20_memory.md R43, R44). -/
def leValue (m : Memory) (addr : Word) : Nat → Nat
  | 0 => 0
  | n + 1 => leValue m addr n + 256 ^ n * (m.byteAt (addr + BitVec.ofNat 32 n)).toNat

/-- Byte `a` lies in a region of the map whose permissions contain `k`; a byte in no region has none
(20_memory.md R50). It is written from R50 and uses nothing of the machine's own check. -/
def mapGrants (map : MemMap) (k : Access) (a : Word) : Prop :=
  ∃ r ∈ map, r.base.toNat ≤ a.toNat ∧ a.toNat < r.base.toNat + r.size ∧
    (match k with
     | .read => r.canRead
     | .write => r.canWrite
     | .execute => r.canExecute) = true

/-- Every byte of an access of `n` bytes at `addr` has the permission `k` (20_memory.md R50). -/
def permitted (s : State) (k : Access) (addr : Word) (n : Nat) : Prop :=
  ∀ j, j < n → mapGrants s.memMap k (addr + BitVec.ofNat 32 j)

/-- Some byte of `n` bytes at `addr` is in `dirty`. -/
def anyDirty (s : State) (addr : Word) (n : Nat) : Prop :=
  ∃ j, j < n ∧ (addr + BitVec.ofNat 32 j).toNat ∈ s.dirty

/-- The state after a trap: only `halt` differs, and it records the cause, the address of the instruction
and the value (60_exceptions.md R256). -/
def trapped (s : State) (c : Cause) (tval : Word) : State := { s with halt := .halted c s.pc tval }

/-- How many bytes an instruction stores: R161 to R163 of 44_stores.md and 48_compressed.md R226; the others
store nothing. -/
def storedBytes : Instr → Nat
  | .sb _ _ _ => 1
  | .sh _ _ _ => 2
  | .sw _ _ _ | .cSw _ _ _ => 4
  | .lui _ _ | .auipc _ _ | .jal _ _ | .jalr _ _ _ => 0
  | .beq _ _ _ | .bne _ _ _ | .blt _ _ _ | .bge _ _ _ | .bltu _ _ _ | .bgeu _ _ _ => 0
  | .lb _ _ _ | .lh _ _ _ | .lw _ _ _ | .lbu _ _ _ | .lhu _ _ _ => 0
  | .addi _ _ _ | .slti _ _ _ | .sltiu _ _ _ | .xori _ _ _ | .ori _ _ _ | .andi _ _ _ => 0
  | .slli _ _ _ | .srli _ _ _ | .srai _ _ _ => 0
  | .add _ _ _ | .sub _ _ _ | .sll _ _ _ | .slt _ _ _ | .sltu _ _ _ => 0
  | .xor _ _ _ | .srl _ _ _ | .sra _ _ _ | .or _ _ _ | .and _ _ _ => 0
  | .fence _ _ _ _ _ | .ecall | .ebreak | .cIllegal | .cNop | .cAddi4spn _ _ => 0
  | .cLw _ _ _ | .cReserved _ | .cAddi _ _ | .cJal _ | .cLi _ _ => 0

/-- The registers an instruction names as destination: the last column of the table of 10_state.md R23. -/
def destOf : Instr → Option RegIdx
  | .lui rd _ | .auipc rd _ | .jal rd _ | .jalr rd _ _ => some rd
  | .lb rd _ _ | .lh rd _ _ | .lw rd _ _ | .lbu rd _ _ | .lhu rd _ _ => some rd
  | .addi rd _ _ | .slti rd _ _ | .sltiu rd _ _ | .xori rd _ _ | .ori rd _ _ | .andi rd _ _ => some rd
  | .slli rd _ _ | .srli rd _ _ | .srai rd _ _ => some rd
  | .add rd _ _ | .sub rd _ _ | .sll rd _ _ | .slt rd _ _ | .sltu rd _ _ => some rd
  | .xor rd _ _ | .srl rd _ _ | .sra rd _ _ | .or rd _ _ | .and rd _ _ => some rd
  | .cAddi4spn rd _ => some (8#5 + rd.setWidth 5)
  | .cLw rd _ _ => some (8#5 + rd.setWidth 5)
  | .cAddi rd _ => some rd
  | .cJal _ => some 1#5
  | .cLi rd _ => some rd
  | .beq _ _ _ | .bne _ _ _ | .blt _ _ _ | .bge _ _ _ | .bltu _ _ _ | .bgeu _ _ _ => none
  | .sb _ _ _ | .sh _ _ _ | .sw _ _ _ | .cSw _ _ _ => none
  | .fence _ _ _ _ _ | .ecall | .ebreak | .cIllegal | .cNop | .cReserved _ => none

/-- The registers an instruction reads: the middle column of the table of 10_state.md R23. -/
def sourcesOf : Instr → List RegIdx
  | .lui _ _ | .auipc _ _ | .jal _ _ => []
  | .jalr _ rs1 _ => [rs1]
  | .beq rs1 rs2 _ | .bne rs1 rs2 _ | .blt rs1 rs2 _ | .bge rs1 rs2 _ => [rs1, rs2]
  | .bltu rs1 rs2 _ | .bgeu rs1 rs2 _ => [rs1, rs2]
  | .lb _ rs1 _ | .lh _ rs1 _ | .lw _ rs1 _ | .lbu _ rs1 _ | .lhu _ rs1 _ => [rs1]
  | .sb rs1 rs2 _ | .sh rs1 rs2 _ | .sw rs1 rs2 _ => [rs1, rs2]
  | .addi _ rs1 _ | .slti _ rs1 _ | .sltiu _ rs1 _ | .xori _ rs1 _ => [rs1]
  | .ori _ rs1 _ | .andi _ rs1 _ | .slli _ rs1 _ | .srli _ rs1 _ | .srai _ rs1 _ => [rs1]
  | .add _ rs1 rs2 | .sub _ rs1 rs2 | .sll _ rs1 rs2 | .slt _ rs1 rs2 | .sltu _ rs1 rs2 => [rs1, rs2]
  | .xor _ rs1 rs2 | .srl _ rs1 rs2 | .sra _ rs1 rs2 | .or _ rs1 rs2 | .and _ rs1 rs2 => [rs1, rs2]
  | .fence _ _ _ _ _ | .ecall | .ebreak | .cIllegal | .cNop | .cReserved _ => []
  | .cAddi4spn _ _ => [2#5]
  | .cLw _ rs1 _ => [8#5 + rs1.setWidth 5]
  | .cSw rs1 rs2 _ => [8#5 + rs1.setWidth 5, 8#5 + rs2.setWidth 5]
  | .cAddi rd _ => [rd]
  | .cJal _ | .cLi _ _ => []

/-- The length of the instruction in bytes (00_scope.md R10). -/
def ilenOf (i : Instr) : Nat :=
  match encode i with
  | .word _ => 4
  | .parcel _ => 2

/-- The effective address of a load or a store (43_loads.md R150, 44_stores.md R160, 48_compressed.md R225,
R226); other instructions have none. -/
def effectiveAddress (i : Instr) (s : State) : Option Word :=
  match i with
  | .lb _ rs1 imm | .lh _ rs1 imm | .lw _ rs1 imm | .lbu _ rs1 imm | .lhu _ rs1 imm =>
    some (s.getX rs1 + imm.signExtend 32)
  | .sb rs1 _ imm | .sh rs1 _ imm | .sw rs1 _ imm => some (s.getX rs1 + imm.signExtend 32)
  | .cLw _ rs1 uimm => some (s.getX (8#5 + rs1.setWidth 5) + (uimm ++ 0#2).setWidth 32)
  | .cSw rs1 _ uimm => some (s.getX (8#5 + rs1.setWidth 5) + (uimm ++ 0#2).setWidth 32)
  | .lui _ _ | .auipc _ _ | .jal _ _ | .jalr _ _ _ => none
  | .beq _ _ _ | .bne _ _ _ | .blt _ _ _ | .bge _ _ _ | .bltu _ _ _ | .bgeu _ _ _ => none
  | .addi _ _ _ | .slti _ _ _ | .sltiu _ _ _ | .xori _ _ _ | .ori _ _ _ | .andi _ _ _ => none
  | .slli _ _ _ | .srli _ _ _ | .srai _ _ _ => none
  | .add _ _ _ | .sub _ _ _ | .sll _ _ _ | .slt _ _ _ | .sltu _ _ _ => none
  | .xor _ _ _ | .srl _ _ _ | .sra _ _ _ | .or _ _ _ | .and _ _ _ => none
  | .fence _ _ _ _ _ | .ecall | .ebreak | .cIllegal | .cNop | .cAddi4spn _ _ => none
  | .cReserved _ | .cAddi _ _ | .cJal _ | .cLi _ _ => none

/-- The instruction a running hart is about to execute. -/
def current (s : State) (i : Instr) : Prop := ∃ iw, s.fetch = .got iw ∧ decode iw = .ok i

/-- The 32-bit instruction a 16-bit one executes as (30_encoding.md R107), C.JAL apart, whose link value
differs. -/
def expansionOf : Instr → Option Instr
  | .cAddi4spn rd nzuimm =>
    some (.addi (8#5 + rd.setWidth 5) 2#5 ((nzuimm ++ 0#2).setWidth 12))
  | .cLw rd rs1 uimm =>
    some (.lw (8#5 + rd.setWidth 5) (8#5 + rs1.setWidth 5) ((uimm ++ 0#2).setWidth 12))
  | .cSw rs1 rs2 uimm =>
    some (.sw (8#5 + rs1.setWidth 5) (8#5 + rs2.setWidth 5) ((uimm ++ 0#2).setWidth 12))
  | .cNop => some (.addi 0#5 0#5 0#12)
  | .cAddi rd nzimm => some (.addi rd rd (nzimm.signExtend 12))
  | .cLi rd imm => some (.addi rd 0#5 (imm.signExtend 12))
  | .cIllegal | .cReserved _ | .cJal _ => none
  | .lui _ _ | .auipc _ _ | .jal _ _ | .jalr _ _ _ => none
  | .beq _ _ _ | .bne _ _ _ | .blt _ _ _ | .bge _ _ _ | .bltu _ _ _ | .bgeu _ _ _ => none
  | .lb _ _ _ | .lh _ _ _ | .lw _ _ _ | .lbu _ _ _ | .lhu _ _ _ => none
  | .sb _ _ _ | .sh _ _ _ | .sw _ _ _ => none
  | .addi _ _ _ | .slti _ _ _ | .sltiu _ _ _ | .xori _ _ _ | .ori _ _ _ | .andi _ _ _ => none
  | .slli _ _ _ | .srli _ _ _ | .srai _ _ _ => none
  | .add _ _ _ | .sub _ _ _ | .sll _ _ _ | .slt _ _ _ | .sltu _ _ _ => none
  | .xor _ _ _ | .srl _ _ _ | .sra _ _ _ | .or _ _ _ | .and _ _ _ => none
  | .fence _ _ _ _ _ | .ecall | .ebreak => none

/-! ## The instruction families as data: what the statements about a family say of each member -/

/-- 42_branches.md R141 to R146: funct3, the constructor, and when the branch is taken. -/
def branchRows :
    List (BitVec 3 × (RegIdx → RegIdx → BitVec 12 → Instr) × (Word → Word → Bool)) :=
  [(0b000#3, Instr.beq, fun a b => decide (a = b)),
   (0b001#3, Instr.bne, fun a b => decide (a ≠ b)),
   (0b100#3, Instr.blt, fun a b => decide (a.toInt < b.toInt)),
   (0b101#3, Instr.bge, fun a b => decide (b.toInt ≤ a.toInt)),
   (0b110#3, Instr.bltu, fun a b => decide (a.toNat < b.toNat)),
   (0b111#3, Instr.bgeu, fun a b => decide (b.toNat ≤ a.toNat))]

/-- 43_loads.md R151 to R155: funct3, the constructor, the bytes read, and what the register gets of their
little-endian value. -/
def loadRows :
    List (BitVec 3 × (RegIdx → RegIdx → BitVec 12 → Instr) × Nat × (Nat → Word)) :=
  [(0b000#3, Instr.lb, 1, fun u => (BitVec.ofNat 8 u).signExtend 32),
   (0b001#3, Instr.lh, 2, fun u => (BitVec.ofNat 16 u).signExtend 32),
   (0b010#3, Instr.lw, 4, fun u => BitVec.ofNat 32 u),
   (0b100#3, Instr.lbu, 1, fun u => (BitVec.ofNat 8 u).setWidth 32),
   (0b101#3, Instr.lhu, 2, fun u => (BitVec.ofNat 16 u).setWidth 32)]

/-- 44_stores.md R161 to R163: funct3, the constructor, the bytes written. -/
def storeRows :
    List (BitVec 3 × (RegIdx → RegIdx → BitVec 12 → Instr) × Nat) :=
  [(0b000#3, Instr.sb, 1), (0b001#3, Instr.sh, 2), (0b010#3, Instr.sw, 4)]

/-- 45_op_imm.md R171 to R176: funct3, the constructor, and how the result follows from x[rs1] and the
immediate. -/
def immRows :
    List (BitVec 3 × (RegIdx → RegIdx → BitVec 12 → Instr) × (Word → BitVec 12 → Word → Prop)) :=
  [(0b000#3, Instr.addi, fun a imm v => (v.toNat : Int) = (a.toNat + imm.toInt) % 4294967296),
   (0b010#3, Instr.slti, fun a imm v => v.toNat = if a.toInt < imm.toInt then 1 else 0),
   (0b011#3, Instr.sltiu, fun a imm v =>
      v.toNat = if (a.toNat : Int) < imm.toInt % 4294967296 then 1 else 0),
   (0b100#3, Instr.xori, fun a imm v =>
      ∀ k < 32, v.getLsbD k = (a.getLsbD k ^^ imm.getLsbD (min k 11))),
   (0b110#3, Instr.ori, fun a imm v =>
      ∀ k < 32, v.getLsbD k = (a.getLsbD k || imm.getLsbD (min k 11))),
   (0b111#3, Instr.andi, fun a imm v =>
      ∀ k < 32, v.getLsbD k = (a.getLsbD k && imm.getLsbD (min k 11)))]

/-- 45_op_imm.md R178 to R180: bits 31:25, funct3, the constructor, and how the result follows from x[rs1] and
the amount. -/
def shiftImmRows :
    List (BitVec 7 × BitVec 3 × (RegIdx → RegIdx → BitVec 5 → Instr) × (Word → Nat → Word → Prop)) :=
  [(0b0000000#7, 0b001#3, Instr.slli, fun a n v => v.toNat = a.toNat * 2 ^ n % 4294967296),
   (0b0000000#7, 0b101#3, Instr.srli, fun a n v => v.toNat = a.toNat / 2 ^ n),
   (0b0100000#7, 0b101#3, Instr.srai, fun a n v => v.toInt = a.toInt / 2 ^ n)]

/-- 46_op.md R191 to R200: funct7, funct3, the constructor, and how the result follows from x[rs1] and
x[rs2]. -/
def opRows :
    List (BitVec 7 × BitVec 3 × (RegIdx → RegIdx → RegIdx → Instr) × (Word → Word → Word → Prop)) :=
  [(0b0000000#7, 0b000#3, Instr.add, fun a b v => v.toNat = (a.toNat + b.toNat) % 4294967296),
   (0b0100000#7, 0b000#3, Instr.sub,
      fun a b v => (v.toNat : Int) = (a.toNat - b.toNat : Int) % 4294967296),
   (0b0000000#7, 0b001#3, Instr.sll,
      fun a b v => v.toNat = a.toNat * 2 ^ (b.toNat % 32) % 4294967296),
   (0b0000000#7, 0b010#3, Instr.slt, fun a b v => v.toNat = if a.toInt < b.toInt then 1 else 0),
   (0b0000000#7, 0b011#3, Instr.sltu, fun a b v => v.toNat = if a.toNat < b.toNat then 1 else 0),
   (0b0000000#7, 0b100#3, Instr.xor, fun a b v => ∀ k < 32, v.getLsbD k = (a.getLsbD k ^^ b.getLsbD k)),
   (0b0000000#7, 0b101#3, Instr.srl, fun a b v => v.toNat = a.toNat / 2 ^ (b.toNat % 32)),
   (0b0100000#7, 0b101#3, Instr.sra, fun a b v => v.toInt = a.toInt / 2 ^ (b.toNat % 32)),
   (0b0000000#7, 0b110#3, Instr.or, fun a b v => ∀ k < 32, v.getLsbD k = (a.getLsbD k || b.getLsbD k)),
   (0b0000000#7, 0b111#3, Instr.and,
      fun a b v => ∀ k < 32, v.getLsbD k = (a.getLsbD k && b.getLsbD k))]

/-! ## The row lists of 30_encoding.md -/

/-- R93: mnemonic, match, mask. -/
def rows32 : List (String × Word × Word) :=
  [("LUI", 0x00000037#32, 0x0000007F#32), ("AUIPC", 0x00000017#32, 0x0000007F#32),
   ("JAL", 0x0000006F#32, 0x0000007F#32), ("JALR", 0x00000067#32, 0x0000707F#32)] ++
  [("BEQ", 0x00000063#32, 0x0000707F#32), ("BNE", 0x00001063#32, 0x0000707F#32),
   ("BLT", 0x00004063#32, 0x0000707F#32), ("BGE", 0x00005063#32, 0x0000707F#32),
   ("BLTU", 0x00006063#32, 0x0000707F#32), ("BGEU", 0x00007063#32, 0x0000707F#32)] ++
  [("LB", 0x00000003#32, 0x0000707F#32), ("LH", 0x00001003#32, 0x0000707F#32),
   ("LW", 0x00002003#32, 0x0000707F#32), ("LBU", 0x00004003#32, 0x0000707F#32),
   ("LHU", 0x00005003#32, 0x0000707F#32)] ++
  [("SB", 0x00000023#32, 0x0000707F#32), ("SH", 0x00001023#32, 0x0000707F#32),
   ("SW", 0x00002023#32, 0x0000707F#32)] ++
  [("ADDI", 0x00000013#32, 0x0000707F#32), ("SLTI", 0x00002013#32, 0x0000707F#32),
   ("SLTIU", 0x00003013#32, 0x0000707F#32), ("XORI", 0x00004013#32, 0x0000707F#32),
   ("ORI", 0x00006013#32, 0x0000707F#32), ("ANDI", 0x00007013#32, 0x0000707F#32),
   ("SLLI", 0x00001013#32, 0xFE00707F#32), ("SRLI", 0x00005013#32, 0xFE00707F#32),
   ("SRAI", 0x40005013#32, 0xFE00707F#32)] ++
  [("ADD", 0x00000033#32, 0xFE00707F#32), ("SUB", 0x40000033#32, 0xFE00707F#32),
   ("SLL", 0x00001033#32, 0xFE00707F#32), ("SLT", 0x00002033#32, 0xFE00707F#32),
   ("SLTU", 0x00003033#32, 0xFE00707F#32), ("XOR", 0x00004033#32, 0xFE00707F#32),
   ("SRL", 0x00005033#32, 0xFE00707F#32), ("SRA", 0x40005033#32, 0xFE00707F#32),
   ("OR", 0x00006033#32, 0xFE00707F#32), ("AND", 0x00007033#32, 0xFE00707F#32)] ++
  [("FENCE", 0x0000000F#32, 0x0000707F#32), ("ECALL", 0x00000073#32, 0xFFFFFFFF#32),
   ("EBREAK", 0x00100073#32, 0xFFFFFFFF#32)]

/-- R94 in decode order: mnemonic, match, mask, constraint. -/
def rows16 : List (String × Parcel × Parcel × (Parcel → Bool)) :=
  [("C.ILLEGAL", 0x0000#16, 0xFFFF#16, fun _ => true),
   ("C.NOP", 0x0001#16, 0xFFFF#16, fun _ => true),
   ("C.ADDI4SPN", 0x0000#16, 0xE003#16, fun h => decide (h &&& 0x1FE0#16 ≠ 0#16)),
   ("C.LW", 0x4000#16, 0xE003#16, fun _ => true),
   ("C.RESERVED", 0x8000#16, 0xE003#16, fun _ => true),
   ("C.SW", 0xC000#16, 0xE003#16, fun _ => true)] ++
  [("C.ADDI", 0x0001#16, 0xE003#16,
      fun h => decide (h &&& 0x0F80#16 ≠ 0#16) && decide (h &&& 0x107C#16 ≠ 0#16)),
   ("C.JAL", 0x2001#16, 0xE003#16, fun _ => true),
   ("C.LI", 0x4001#16, 0xE003#16, fun h => decide (h &&& 0x0F80#16 ≠ 0#16))]

end Sys2Proof.Machine
end

