-- ==== Sys2Proof/Certificates/Slice0/Obligations.lean ====
section
/-! DEFINITION. The statements for the provers. Each docstring names the rules of spec/ it rests on. A
statement about an instruction says which words are that instruction (match, mask and fields as the rule
gives them) and that `exec` answers a next state, what it holds, and that everything else is unchanged. -/

open Sys2Proof Sys2Proof.Machine

/-! ## Encoding -/

/-- 30_encoding.md R71, R72 to R94: every well-formed instruction, with every operand at every value its
encoding admits, is what the decoder reads from its bytes, and the bytes after it are left over. -/
def Obligations.DecodeInvertsEncode : Prop :=
  ∀ (i : Instr) (rest : List Byte), i.wellFormed = true →
    decodeBytes (encodeBytes i ++ rest) = .ok (i, rest)

/-- 30_encoding.md R71: an admitted word or parcel has one reading, and the reading keeps every bit. -/
def Obligations.EncodeInvertsDecode : Prop :=
  ∀ (iw : InstWord) (i : Instr), decode iw = .ok i → i.wellFormed = true ∧ encode i = iw

/-- 30_encoding.md R71 over the row lists R93 and R94: a word is the unique row whose match it shows under
its mask, a parcel the first row in decode order that matches and whose constraint holds, and a word or
parcel without such a row is no instruction; with the constraints no two rows match one word or parcel,
C.NOP and C.ILLEGAL included. -/
def Obligations.DecodeFollowsRowLists : Prop :=
  (∀ w : Word, (rows32.find? (fun r => w &&& r.2.2 == r.2.1)).map (·.1) =
    (decode32 w).toOption.map Instr.mnemonic) ∧
  (∀ w : Word, ∀ r ∈ rows32, ∀ q ∈ rows32, w &&& r.2.2 = r.2.1 → w &&& q.2.2 = q.2.1 → r = q) ∧
  (∀ h : Parcel, (rows16.find? (fun r => h &&& r.2.2.1 == r.2.1 && r.2.2.2 h)).map (·.1) =
    (decode16 h).toOption.map Instr.mnemonic) ∧
  (∀ h : Parcel, ∀ r ∈ rows16, ∀ q ∈ rows16, h &&& r.2.2.1 = r.2.1 → r.2.2.2 h = true →
    h &&& q.2.2.1 = q.2.1 → q.2.2.2 h = true → r.1 = q.1)

/-- Words of 95_test_vectors.md, written out from the encodings, decode to what they stand for. -/
def Obligations.KnownWordsDecode : Prop :=
  decode32 0x123452B7#32 = .ok (.lui 5#5 0x12345#20) ∧
  decode32 0xFF9FF0EF#32 = .ok (.jal 1#5 0xFFFFC#20) ∧
  decode32 0xFE209EE3#32 = .ok (.bne 1#5 2#5 0xFFE#12) ∧
  decode32 0xFFC12083#32 = .ok (.lw 1#5 2#5 0xFFC#12) ∧
  decode32 0xFE112E23#32 = .ok (.sw 2#5 1#5 0xFFC#12) ∧
  decode32 0x40415093#32 = .ok (.srai 1#5 2#5 4#5) ∧
  decode32 0x402081B3#32 = .ok (.sub 3#5 1#5 2#5) ∧
  decode32 0x8330000F#32 = .ok (.fence 8#4 3#4 3#4 0#5 0#5) ∧
  decode16 0x1FE8#16 = .ok (.cAddi4spn 2#3 255#8) ∧
  decode16 0x2801#16 = .ok (.cJal 8#11) ∧
  decode32 0x80000073#32 = .error .unlistedFunction ∧
  decode16 0x0281#16 = .error .constraintFails

/-! ## State and reset -/

/-- 70_reset_and_hazards.md R291: every piece of state and its reset value, for every choice of the
parameters; x1 to x31 can have any values. -/
def Obligations.ResetHoldsTheParameters : Prop :=
  (∀ p : BootParams,
    (State.boot p).pc = p.resetPc ∧
    (State.boot p).getX 0#5 = 0#32 ∧
    (∀ a : Word, (State.boot p).mem.byteAt a = p.memInit.byteAt a) ∧
    (State.boot p).memMap = p.memMap ∧
    (State.boot p).halt = .running ∧
    (∀ a : Nat, a ∉ (State.boot p).dirty) ∧
    (State.boot p).mode = .single) ∧
  ∀ (map : MemMap) (init : Memory) (pc : Word) (f : RegIdx → Word), ∃ p : BootParams,
    p.memMap = map ∧ p.memInit = init ∧ p.resetPc = pc ∧
      ∀ r : RegIdx, r ≠ 0#5 → (State.boot p).getX r = f r

/-- Every image of the 2^32 bytes (10_state.md R33, the parameter `MEM_INIT` of R35) has exactly one
canonical list: the choice of what an unlisted byte reads as (log entry 3) shuts no image out. -/
def Obligations.EveryMemoryImageHasOneCanonicalList : Prop :=
  (∀ g : Word → Byte, ∃ m : Memory, m.wf ∧ ∀ a : Word, m.byteAt a = g a) ∧
  ∀ m m' : Memory, m.wf → m'.wf → (∀ a : Word, m.byteAt a = m'.byteAt a) → m = m'

/-- The state after reset is a good state, for every legal choice of the parameters (10_state.md R35) and
for the model's own choice of them (log entries 1 to 4). -/
def Obligations.ResetIsGood : Prop :=
  Inv State.reset ∧ ∀ p : BootParams, p.Legal → Inv (State.boot p)

/-- From every good state a step leads to a good state: memory and `dirty` keep their canonical form, `pc`
stays even (10_state.md R27), `MEM_MAP` stays legal (20_memory.md R50), and the halt record names `pc` and
a cause that can be raised (60_exceptions.md R251, R256). -/
def Obligations.StepKeepsGoodStates : Prop :=
  ∀ s t : State, Inv s → step s = .next t → Inv t

/-- 10_state.md R22. -/
def Obligations.ZeroRegisterIsHardwired : Prop :=
  ∀ (s : State) (v : Word), s.getX 0#5 = 0#32 ∧ s.setX 0#5 v = s ∧
    ∀ rd r : RegIdx, rd ≠ 0#5 →
      (s.setX rd v).getX r = if r = rd then v else s.getX r

/-! ## Memory -/

/-- 20_memory.md R44: the order of the checks, the value, and that memory does not change (the operation
answers no state). -/
def Obligations.MemReadChecksThenReads : Prop :=
  ∀ (s : State) (addr : Word) (n : Width),
    (addr.toNat % n.bytes ≠ 0 → s.memRead addr n = .error ⟨.loadAddressMisaligned, addr⟩) ∧
    (addr.toNat % n.bytes = 0 → ¬ permitted s .read addr n.bytes →
      s.memRead addr n = .error ⟨.loadAccessFault, addr⟩) ∧
    (addr.toNat % n.bytes = 0 → permitted s .read addr n.bytes →
      ∃ v : BitVec n.bits, s.memRead addr n = .ok v ∧ v.toNat = leValue s.mem addr n.bytes)

/-- 20_memory.md R45: the order of the checks, the bytes written and put into `dirty`, and that nothing
else changes; an exception answers no state, so no byte is written. -/
def Obligations.MemWriteChecksThenWrites : Prop :=
  ∀ (s : State) (addr : Word) (n : Width) (v : BitVec n.bits),
    (addr.toNat % n.bytes ≠ 0 → s.memWrite addr n v = .error ⟨.storeAddressMisaligned, addr⟩) ∧
    (addr.toNat % n.bytes = 0 → ¬ permitted s .write addr n.bytes →
      s.memWrite addr n v = .error ⟨.storeAccessFault, addr⟩) ∧
    (addr.toNat % n.bytes = 0 → permitted s .write addr n.bytes →
      ∃ t, s.memWrite addr n v = .ok t ∧ onlyBytes s t addr n.bytes v.toNat ∧ t.pc = s.pc)

/-- 20_memory.md R46: narrow reads of a word written see its bytes; the two accesses are permitted. -/
def Obligations.NarrowReadsSeeTheStoredWord : Prop :=
  ∀ (s t : State) (a : Word) (v : Word), s.memWrite a .word v = .ok t →
    permitted s .read a 4 →
      t.memRead a .byte = .ok (v.extractLsb' 0 8) ∧
      t.memRead (a + 1#32) .byte = .ok (v.extractLsb' 8 8) ∧
      t.memRead (a + 2#32) .byte = .ok (v.extractLsb' 16 8) ∧
      t.memRead (a + 3#32) .byte = .ok (v.extractLsb' 24 8) ∧
      t.memRead a .half = .ok (v.extractLsb' 0 16) ∧
      t.memRead (a + 2#32) .half = .ok (v.extractLsb' 16 16) ∧
      t.memRead a .word = .ok v

/-- 10_state.md R34, 20_memory.md R45: a byte that a step changes is in `dirty` afterwards, and no byte
leaves `dirty`. -/
def Obligations.ChangedBytesAreDirty : Prop :=
  ∀ s t : State, step s = .next t → ∀ a : Word,
    (a.toNat ∈ s.dirty → a.toNat ∈ t.dirty) ∧
      (t.mem.byteAt a ≠ s.mem.byteAt a → a.toNat ∈ t.dirty)

/-- 20_memory.md R53: along every run, a byte that no store has written holds what it held at the start. -/
def Obligations.CleanBytesKeepTheirValue : Prop :=
  ∀ s t : State, Reaches s t → ∀ a : Word, a.toNat ∉ t.dirty → t.mem.byteAt a = s.mem.byteAt a

/-! ## Fetch and step -/

/-- 20_memory.md R55, 60_exceptions.md R252: the parcels, the length, the permissions; in a state whose
`dirty` does not touch the bytes (R56 is SelfModifyingFetchIsRefused). -/
def Obligations.FetchReadsParcels : Prop :=
  ∀ s : State, s.halt = .running →
    (¬ permitted s .execute s.pc 2 →
      step s = .next (trapped s .instructionAccessFault s.pc)) ∧
    (permitted s .execute s.pc 2 → ¬ anyDirty s s.pc 2 →
      (leValue s.mem s.pc 2 % 4 ≠ 3 →
        s.fetch = .got (.parcel (BitVec.ofNat 16 (leValue s.mem s.pc 2)))) ∧
      (leValue s.mem s.pc 2 % 4 = 3 → ¬ permitted s .execute (s.pc + 2#32) 2 →
        step s = .next (trapped s .instructionAccessFault s.pc)) ∧
      (leValue s.mem s.pc 2 % 4 = 3 → permitted s .execute (s.pc + 2#32) 2 →
        ¬ anyDirty s (s.pc + 2#32) 2 →
        s.fetch = .got (.word (BitVec.ofNat 32 (leValue s.mem s.pc 4)))))

/-- 20_memory.md R56: a step is refused exactly when a byte that the fetch of R55 reaches is in `dirty`.
That a first parcel in `dirty` is refused before the second one's permission is examined is log
entry 6. -/
def Obligations.SelfModifyingFetchIsRefused : Prop :=
  ∀ s : State, s.halt = .running →
    ((∃ r, step s = .refused r) ↔
      permitted s .execute s.pc 2 ∧
        (anyDirty s s.pc 2 ∨
          leValue s.mem s.pc 2 % 4 = 3 ∧ permitted s .execute (s.pc + 2#32) 2 ∧
            anyDirty s (s.pc + 2#32) 2)) ∧
    ∀ r, step s = .refused r → r = .selfModifyingCode s.pc

/-- 10_state.md R36: when the bytes at `pc` decode to a well-formed instruction, and they are executable and
not in `dirty`, the step is that instruction's `exec`. `decodeBytes` leaves over what the instruction does
not use of the four bytes. -/
def Obligations.StepRunsTheDecodedInstruction : Prop :=
  ∀ (s : State) (i : Instr) (rest : List Byte), s.halt = .running → i.wellFormed = true →
    decodeBytes [s.mem.byteAt s.pc, s.mem.byteAt (s.pc + 1#32), s.mem.byteAt (s.pc + 2#32),
      s.mem.byteAt (s.pc + 3#32)] = .ok (i, rest) →
    permitted s .execute s.pc (4 - rest.length) → ¬ anyDirty s s.pc (4 - rest.length) →
      step s = exec i s

/-- The model's own placing of an instruction (log entry 8): the very next step runs exactly it. -/
def Obligations.PlacedInstructionRunsNext : Prop :=
  ∀ (s : State) (i : Instr), i.wellFormed = true →
    (∀ w, encode i = .word w → step (s.withFetchWord 32 w.toNat) = exec i (s.withFetchWord 32 w.toNat)) ∧
    (∀ h, encode i = .parcel h →
      step (s.withFetchWord 16 h.toNat) = exec i (s.withFetchWord 16 h.toNat))

/-- 20_memory.md R56 with 70_reset_and_hazards.md R292 and R296: whatever a run has stored, the parcel or
word it executes next is the one `MEM_INIT` holds at that address. -/
def Obligations.ExecutedCodeIsInitialCode : Prop :=
  ∀ (p : BootParams) (t : State) (iw : InstWord), Reaches (State.boot p) t → t.fetch = .got iw →
    State.fetch { State.boot p with pc := t.pc } = .got iw

/-! ## Exceptions -/

/-- 60_exceptions.md R256: a step that raises an exception changes nothing but `halt`, records the address of
the instruction, and is the last one. -/
def Obligations.TrapChangesOnlyHalt : Prop :=
  ∀ s t : State, s.halt = .running → step s = .next t → t.halt ≠ .running →
    ∃ c v, t = trapped s c v ∧ ∀ u, step t ≠ .next u

/-- 60_exceptions.md R250: for each exception, its code, the instructions that raise it and the value it
carries. -/
def Obligations.EachExceptionHasItsSource : Prop :=
  [Cause.instructionAddressMisaligned, .instructionAccessFault, .illegalInstruction, .breakpoint,
    .loadAddressMisaligned, .loadAccessFault, .storeAddressMisaligned, .storeAccessFault,
    .environmentCall].map causeCode = [0, 1, 2, 3, 4, 5, 6, 7, 11] ∧
  ∀ (s t : State) (c : Cause) (epc v : Word), step s = .next t → t.halt = .halted c epc v →
    match c with
    | .instructionAddressMisaligned => False
    | .instructionAccessFault => s.fetch = .noPermission ∧ v = s.pc
    | .illegalInstruction => ∃ iw, s.fetch = .got iw ∧ v = instValue iw ∧
        ((∃ r, decode iw = .error r) ∨ decode iw = .ok .cIllegal ∨
          ∃ b, decode iw = .ok (.cReserved b))
    | .breakpoint => current s .ebreak ∧ v = s.pc
    | .loadAddressMisaligned => ∃ i, current s i ∧ effectiveAddress i s = some v ∧
        i.mnemonic ∈ ["LH", "LHU", "LW", "C.LW"]
    | .loadAccessFault => ∃ i, current s i ∧ effectiveAddress i s = some v ∧
        i.mnemonic ∈ ["LB", "LH", "LW", "LBU", "LHU", "C.LW"]
    | .storeAddressMisaligned => ∃ i, current s i ∧ effectiveAddress i s = some v ∧
        i.mnemonic ∈ ["SH", "SW", "C.SW"]
    | .storeAccessFault => ∃ i, current s i ∧ effectiveAddress i s = some v ∧
        i.mnemonic ∈ ["SB", "SH", "SW", "C.SW"]
    | .environmentCall => current s .ecall ∧ v = 0#32

/-- 60_exceptions.md R251: the exception is never raised, `pc` is even in every reachable state, and every
even address is a legal instruction address: a fetch there is examined for permission and `dirty` only. -/
def Obligations.InstructionAddressIsNeverMisaligned : Prop :=
  (∀ (s t : State) (epc v : Word), step s = .next t →
    t.halt ≠ .halted .instructionAddressMisaligned epc v) ∧
  (∀ (p : BootParams) (t : State), p.Legal → Reaches (State.boot p) t → t.pc.toNat % 2 = 0) ∧
  ∀ s : State, permitted s .execute s.pc 4 → ¬ anyDirty s s.pc 4 → ∃ iw, s.fetch = .got iw

/-- 60_exceptions.md R253: the all-zero parcel, the Reserved parcels, and everything the decoder admits no
instruction for raise IllegalInstruction with the fetched bits as value. -/
def Obligations.UnadmittedBitsRaiseIllegal : Prop :=
  ∀ (s : State) (iw : InstWord), s.halt = .running → s.fetch = .got iw →
    ((∃ r, decode iw = .error r) ∨ decode iw = .ok .cIllegal ∨ ∃ b, decode iw = .ok (.cReserved b)) →
    step s = .next (trapped s .illegalInstruction
      (match iw with
       | .parcel h => h.setWidth 32
       | .word w => w))

/-- 60_exceptions.md R263: a run ends normally at an ECALL and nowhere else. -/
def Obligations.NormalEndIsEcall : Prop :=
  ∀ s t : State, step s = .next t → (endedNormally t ↔ current s .ecall)

/-! ## All instructions -/

/-- No instruction stops: `exec` answers a next state for every instruction, state and operand. -/
def Obligations.EveryInstructionAnswersANextState : Prop :=
  ∀ (i : Instr) (s : State), ∃ t, exec i s = .next t

/-- The frame of all instructions, after the Writes column of 10_state.md R23: no register but the
destination, no byte of memory and not `dirty` unless the instruction is a store, never `MEM_MAP` or the
mode. -/
def Obligations.InstructionsWriteOnlyTheirDestination : Prop :=
  ∀ (i : Instr) (s t : State), exec i s = .next t →
    (∀ r : RegIdx, destOf i ≠ some r → t.getX r = s.getX r) ∧
    (storedBytes i = 0 → sameMemory s t) ∧
    (storedBytes i ≠ 0 → ∀ addr, effectiveAddress i s = some addr →
      ∀ a : Word, ¬ (a - addr).toNat < storedBytes i →
        t.mem.byteAt a = s.mem.byteAt a ∧ (a.toNat ∈ t.dirty ↔ a.toNat ∈ s.dirty)) ∧
    t.memMap = s.memMap ∧ t.mode = s.mode

/-- The Reads column of 10_state.md R23: two states that agree outside the registers, and on the registers
the instruction reads, get the same pc, halt record, memory and `dirty`, and the same value in the
destination. -/
def Obligations.InstructionsReadOnlyTheirSources : Prop :=
  ∀ (i : Instr) (s t t' : State) (x' : Vector Word 31),
    (∀ r ∈ sourcesOf i, State.getX { s with x := x' } r = s.getX r) →
    exec i s = .next t → exec i { s with x := x' } = .next t' →
      t'.pc = t.pc ∧ t'.halt = t.halt ∧ t'.mem = t.mem ∧ t'.dirty = t.dirty ∧
        (t.halt = .running → ∀ r, destOf i = some r → t'.getX r = t.getX r)

/-- 10_state.md R26: the next pc of an instruction that raises nothing and does not execute `pc <- t`, the
two next pcs of a branch, and that an instruction which raises changes neither `pc` nor another register.
The targets of JAL, JALR and C.JAL are stated with them. -/
def Obligations.PcAdvancesByTheLength : Prop :=
  ∀ (i : Instr) (s t : State), s.halt = .running → exec i s = .next t →
    (t.halt = .running →
      match i with
      | .jal _ _ | .jalr _ _ _ | .cJal _ => True
      | .beq _ _ imm | .bne _ _ imm | .blt _ _ imm | .bge _ _ imm | .bltu _ _ imm | .bgeu _ _ imm =>
        t.pc = s.pc + 4#32 ∨ (t.pc.toNat : Int) = (s.pc.toNat + 2 * imm.toInt) % 4294967296
      | _ => t.pc.toNat = (s.pc.toNat + ilenOf i) % 4294967296) ∧
    (t.halt ≠ .running → t.pc = s.pc ∧ sameRegs s t)

/-- 60_exceptions.md R265, 20_memory.md R50: no step changes the mode or the memory map. -/
def Obligations.NoStepChangesModeOrMap : Prop :=
  ∀ s t : State, step s = .next t → t.mode = s.mode ∧ t.memMap = s.memMap

/-! ## LUI, AUIPC, JAL, JALR -/

/-- 40_upper_immediate.md R120, R121. -/
def Obligations.UpperImmediateResults : Prop :=
  (∀ w : Word, w &&& 0x0000007F#32 = 0x00000037#32 →
    decode32 w = .ok (.lui (w.extractLsb' 7 5) (w.extractLsb' 12 20))) ∧
  (∀ w : Word, w &&& 0x0000007F#32 = 0x00000017#32 →
    decode32 w = .ok (.auipc (w.extractLsb' 7 5) (w.extractLsb' 12 20))) ∧
  ∀ (rd : RegIdx) (imm : BitVec 20) (s : State),
    (∃ t v, exec (.lui rd imm) s = .next t ∧ onlyReg s t rd v ∧
      v.toNat = imm.toNat * 4096 ∧ t.pc = s.pc + 4#32) ∧
    (∃ t v, exec (.auipc rd imm) s = .next t ∧ onlyReg s t rd v ∧
      v.toNat = (s.pc.toNat + imm.toNat * 4096) % 4294967296 ∧ t.pc = s.pc + 4#32)

/-- 41_jumps.md R130; `imm` is offset[20:1]. -/
def Obligations.JalLinksAndJumps : Prop :=
  (∀ w : Word, w &&& 0x0000007F#32 = 0x0000006F#32 →
    decode32 w = .ok (.jal (w.extractLsb' 7 5)
      (w.extractLsb' 31 1 ++ w.extractLsb' 12 8 ++ w.extractLsb' 20 1 ++ w.extractLsb' 21 10))) ∧
  ∀ (rd : RegIdx) (imm : BitVec 20) (s : State),
    ∃ t, exec (.jal rd imm) s = .next t ∧ onlyReg s t rd (s.pc + 4#32) ∧
      (t.pc.toNat : Int) = (s.pc.toNat + 2 * imm.toInt) % 4294967296

/-- 41_jumps.md R131. -/
def Obligations.JalrLinksAndJumpsToEvenTarget : Prop :=
  (∀ w : Word, w &&& 0x0000707F#32 = 0x00000067#32 →
    decode32 w = .ok (.jalr (w.extractLsb' 7 5) (w.extractLsb' 15 5) (w.extractLsb' 20 12))) ∧
  ∀ (rd rs1 : RegIdx) (imm : BitVec 12) (s : State),
    ∃ t, exec (.jalr rd rs1 imm) s = .next t ∧ onlyReg s t rd (s.pc + 4#32) ∧
      (t.pc.toNat : Int) = ((s.getX rs1).toNat + imm.toInt) % 4294967296 / 2 * 2

/-! ## Branches -/

/-- 42_branches.md R140 to R146; `imm` is offset[12:1]. -/
def Obligations.BranchesCompareAndJump : Prop :=
  ∀ (f3 : BitVec 3) (mk : RegIdx → RegIdx → BitVec 12 → Instr) (cond : Word → Word → Bool),
    (f3, mk, cond) ∈ branchRows →
    (∀ w : Word, w &&& 0x0000707F#32 = 0#17 ++ f3 ++ 0b000001100011#12 →
      decode32 w = .ok (mk (w.extractLsb' 15 5) (w.extractLsb' 20 5)
        (w.extractLsb' 31 1 ++ w.extractLsb' 7 1 ++ w.extractLsb' 25 6 ++ w.extractLsb' 8 4))) ∧
    ∀ (rs1 rs2 : RegIdx) (imm : BitVec 12) (s : State),
      ∃ t, exec (mk rs1 rs2 imm) s = .next t ∧ onlyPc s t ∧
        (cond (s.getX rs1) (s.getX rs2) = true →
          (t.pc.toNat : Int) = (s.pc.toNat + 2 * imm.toInt) % 4294967296) ∧
        (cond (s.getX rs1) (s.getX rs2) = false → t.pc = s.pc + 4#32)

/-! ## Loads and stores -/

/-- 43_loads.md R150 to R155: the words, the exceptions in their order (rd = x0 included), and the value and
the frame where the access is aligned and permitted. -/
def Obligations.LoadsReadAndExtend : Prop :=
  ∀ (f3 : BitVec 3) (mk : RegIdx → RegIdx → BitVec 12 → Instr) (n : Nat) (ext : Nat → Word),
    (f3, mk, n, ext) ∈ loadRows →
    (∀ w : Word, w &&& 0x0000707F#32 = 0#17 ++ f3 ++ 0b000000000011#12 →
      decode32 w = .ok (mk (w.extractLsb' 7 5) (w.extractLsb' 15 5) (w.extractLsb' 20 12))) ∧
    ∀ (rd rs1 : RegIdx) (imm : BitVec 12) (s : State) (addr : Word),
      addr = s.getX rs1 + imm.signExtend 32 →
      (addr.toNat % n ≠ 0 →
        exec (mk rd rs1 imm) s = .next (trapped s .loadAddressMisaligned addr)) ∧
      (addr.toNat % n = 0 → ¬ permitted s .read addr n →
        exec (mk rd rs1 imm) s = .next (trapped s .loadAccessFault addr)) ∧
      (addr.toNat % n = 0 → permitted s .read addr n →
        ∃ t, exec (mk rd rs1 imm) s = .next t ∧
          onlyReg s t rd (ext (leValue s.mem addr n)) ∧ t.pc = s.pc + 4#32)

/-- 44_stores.md R160 to R163: the words, the address, the exceptions in their order, and the bytes written
and the frame where the access is aligned and permitted. -/
def Obligations.StoresWriteTheLowBytes : Prop :=
  ∀ (f3 : BitVec 3) (mk : RegIdx → RegIdx → BitVec 12 → Instr) (n : Nat),
    (f3, mk, n) ∈ storeRows →
    (∀ w : Word, w &&& 0x0000707F#32 = 0#17 ++ f3 ++ 0b000000100011#12 →
      decode32 w = .ok (mk (w.extractLsb' 15 5) (w.extractLsb' 20 5)
        (w.extractLsb' 25 7 ++ w.extractLsb' 7 5))) ∧
    ∀ (rs1 rs2 : RegIdx) (imm : BitVec 12) (s : State) (addr : Word),
      addr = s.baseDisp rs1 (imm.signExtend 32) →
      (addr.toNat : Int) = ((s.getX rs1).toNat + imm.toInt) % 4294967296 ∧
      (addr.toNat % n ≠ 0 →
        exec (mk rs1 rs2 imm) s = .next (trapped s .storeAddressMisaligned addr)) ∧
      (addr.toNat % n = 0 → ¬ permitted s .write addr n →
        exec (mk rs1 rs2 imm) s = .next (trapped s .storeAccessFault addr)) ∧
      (addr.toNat % n = 0 → permitted s .write addr n →
        ∃ t, exec (mk rs1 rs2 imm) s = .next t ∧
          onlyBytes s t addr n (s.getX rs2).toNat ∧ t.pc = s.pc + 4#32)

/-! ## Register-immediate and register-register -/

/-- 45_op_imm.md R170 to R176. -/
def Obligations.ImmediateArithmeticResults : Prop :=
  ∀ (f3 : BitVec 3) (mk : RegIdx → RegIdx → BitVec 12 → Instr) (rel : Word → BitVec 12 → Word → Prop),
    (f3, mk, rel) ∈ immRows →
    (∀ w : Word, w &&& 0x0000707F#32 = 0#17 ++ f3 ++ 0b000000010011#12 →
      decode32 w = .ok (mk (w.extractLsb' 7 5) (w.extractLsb' 15 5) (w.extractLsb' 20 12))) ∧
    ∀ (rd rs1 : RegIdx) (imm : BitVec 12) (s : State),
      ∃ t v, exec (mk rd rs1 imm) s = .next t ∧ onlyReg s t rd v ∧ rel (s.getX rs1) imm v ∧
        t.pc = s.pc + 4#32

/-- 45_op_imm.md R177 to R180; SRAI's result is the floor of the signed quotient. -/
def Obligations.ImmediateShiftResults : Prop :=
  ∀ (f7 : BitVec 7) (f3 : BitVec 3) (mk : RegIdx → RegIdx → BitVec 5 → Instr)
    (rel : Word → Nat → Word → Prop),
    (f7, f3, mk, rel) ∈ shiftImmRows →
    (∀ w : Word, w &&& 0xFE00707F#32 = f7 ++ 0#10 ++ f3 ++ 0b000000010011#12 →
      decode32 w = .ok (mk (w.extractLsb' 7 5) (w.extractLsb' 15 5) (w.extractLsb' 20 5))) ∧
    ∀ (rd rs1 : RegIdx) (shamt : BitVec 5) (s : State),
      ∃ t v, exec (mk rd rs1 shamt) s = .next t ∧ onlyReg s t rd v ∧
        rel (s.getX rs1) shamt.toNat v ∧ t.pc = s.pc + 4#32

/-- 46_op.md R190 to R200. -/
def Obligations.RegisterOperationResults : Prop :=
  ∀ (f7 : BitVec 7) (f3 : BitVec 3) (mk : RegIdx → RegIdx → RegIdx → Instr)
    (rel : Word → Word → Word → Prop),
    (f7, f3, mk, rel) ∈ opRows →
    (∀ w : Word, w &&& 0xFE00707F#32 = f7 ++ 0#10 ++ f3 ++ 0b000000110011#12 →
      decode32 w = .ok (mk (w.extractLsb' 7 5) (w.extractLsb' 15 5) (w.extractLsb' 20 5))) ∧
    ∀ (rd rs1 rs2 : RegIdx) (s : State),
      ∃ t v, exec (mk rd rs1 rs2) s = .next t ∧ onlyReg s t rd v ∧
        rel (s.getX rs1) (s.getX rs2) v ∧ t.pc = s.pc + 4#32

/-! ## FENCE, ECALL, EBREAK -/

/-- 47_fence_system.md R210: every value of the five fields decodes as FENCE, and only `pc` changes. -/
def Obligations.FenceOnlyAdvances : Prop :=
  (∀ w : Word, w &&& 0x0000707F#32 = 0x0000000F#32 →
    decode32 w = .ok (.fence (w.extractLsb' 28 4) (w.extractLsb' 24 4) (w.extractLsb' 20 4)
      (w.extractLsb' 15 5) (w.extractLsb' 7 5))) ∧
  ∀ (fm pred succ : BitVec 4) (rs1 rd : RegIdx) (s : State),
    ∃ t, exec (.fence fm pred succ rs1 rd) s = .next t ∧ onlyPc s t ∧ t.pc = s.pc + 4#32

/-- 47_fence_system.md R211, R212, 60_exceptions.md R258: the two words, and the exception each takes, with
`epc` its own address. -/
def Obligations.EcallAndEbreakTrap : Prop :=
  (∀ w : Word, decode32 w = .ok .ecall ↔ w = 0x00000073#32) ∧
  (∀ w : Word, decode32 w = .ok .ebreak ↔ w = 0x00100073#32) ∧
  ∀ s : State,
    exec .ecall s = .next { s with halt := .halted .environmentCall s.pc 0#32 } ∧
    exec .ebreak s = .next { s with halt := .halted .breakpoint s.pc s.pc }

/-! ## 16-bit instructions -/

/-- 48_compressed.md R224; `nzuimm` is nzuimm[9:2]. -/
def Obligations.CAddi4spnAddsToX2 : Prop :=
  (∀ h : Parcel, h &&& 0xE003#16 = 0x0000#16 → h.extractLsb' 5 8 ≠ 0#8 →
    decode16 h = .ok (.cAddi4spn (h.extractLsb' 2 3)
      (h.extractLsb' 7 4 ++ h.extractLsb' 11 2 ++ h.extractLsb' 5 1 ++ h.extractLsb' 6 1))) ∧
  ∀ (rd : CRegIdx) (nzuimm : BitVec 8) (s : State),
    ∃ t v, exec (.cAddi4spn rd nzuimm) s = .next t ∧ onlyReg s t (BitVec.ofNat 5 (8 + rd.toNat)) v ∧
      v.toNat = ((s.getX 2#5).toNat + 4 * nzuimm.toNat) % 4294967296 ∧ t.pc = s.pc + 2#32

/-- 48_compressed.md R225; `uimm` is uimm[6:2]. -/
def Obligations.CLwReadsAWord : Prop :=
  (∀ h : Parcel, h &&& 0xE003#16 = 0x4000#16 →
    decode16 h = .ok (.cLw (h.extractLsb' 2 3) (h.extractLsb' 7 3)
      (h.extractLsb' 5 1 ++ h.extractLsb' 10 3 ++ h.extractLsb' 6 1))) ∧
  ∀ (rd rs1 : CRegIdx) (uimm : BitVec 5) (s : State) (addr : Word),
    addr = s.getX (BitVec.ofNat 5 (8 + rs1.toNat)) + BitVec.ofNat 32 (4 * uimm.toNat) →
    (addr.toNat % 4 ≠ 0 →
      exec (.cLw rd rs1 uimm) s = .next (trapped s .loadAddressMisaligned addr)) ∧
    (addr.toNat % 4 = 0 → ¬ permitted s .read addr 4 →
      exec (.cLw rd rs1 uimm) s = .next (trapped s .loadAccessFault addr)) ∧
    (addr.toNat % 4 = 0 → permitted s .read addr 4 →
      ∃ t v, exec (.cLw rd rs1 uimm) s = .next t ∧ onlyReg s t (BitVec.ofNat 5 (8 + rd.toNat)) v ∧
        v.toNat = leValue s.mem addr 4 ∧ t.pc = s.pc + 2#32)

/-- 48_compressed.md R226, with bits 15:13 = 110 (90_conflicts.md C4); `uimm` is uimm[6:2]. -/
def Obligations.CSwWritesAWord : Prop :=
  (∀ h : Parcel, h &&& 0xE003#16 = 0xC000#16 →
    decode16 h = .ok (.cSw (h.extractLsb' 7 3) (h.extractLsb' 2 3)
      (h.extractLsb' 5 1 ++ h.extractLsb' 10 3 ++ h.extractLsb' 6 1))) ∧
  ∀ (rs1 rs2 : CRegIdx) (uimm : BitVec 5) (s : State) (addr : Word),
    addr = s.baseDisp (BitVec.ofNat 5 (8 + rs1.toNat)) (BitVec.ofNat 32 (4 * uimm.toNat)) →
    addr.toNat = ((s.getX (BitVec.ofNat 5 (8 + rs1.toNat))).toNat + 4 * uimm.toNat) % 4294967296 ∧
    (addr.toNat % 4 ≠ 0 →
      exec (.cSw rs1 rs2 uimm) s = .next (trapped s .storeAddressMisaligned addr)) ∧
    (addr.toNat % 4 = 0 → ¬ permitted s .write addr 4 →
      exec (.cSw rs1 rs2 uimm) s = .next (trapped s .storeAccessFault addr)) ∧
    (addr.toNat % 4 = 0 → permitted s .write addr 4 →
      ∃ t, exec (.cSw rs1 rs2 uimm) s = .next t ∧
        onlyBytes s t addr 4 (s.getX (BitVec.ofNat 5 (8 + rs2.toNat))).toNat ∧ t.pc = s.pc + 2#32)

/-- 48_compressed.md R227, R228, R230. -/
def Obligations.CNopCAddiCLiResults : Prop :=
  (∀ h : Parcel, decode16 h = .ok .cNop ↔ h = 0x0001#16) ∧
  (∀ h : Parcel, h &&& 0xE003#16 = 0x0001#16 → h.extractLsb' 7 5 ≠ 0#5 →
    h.extractLsb' 12 1 ++ h.extractLsb' 2 5 ≠ 0#6 →
    decode16 h = .ok (.cAddi (h.extractLsb' 7 5) (h.extractLsb' 12 1 ++ h.extractLsb' 2 5))) ∧
  (∀ h : Parcel, h &&& 0xE003#16 = 0x4001#16 → h.extractLsb' 7 5 ≠ 0#5 →
    decode16 h = .ok (.cLi (h.extractLsb' 7 5) (h.extractLsb' 12 1 ++ h.extractLsb' 2 5))) ∧
  ∀ (rd : RegIdx) (imm : BitVec 6) (s : State),
    (∃ t, exec .cNop s = .next t ∧ onlyPc s t ∧ t.pc = s.pc + 2#32) ∧
    (∃ t v, exec (.cAddi rd imm) s = .next t ∧ onlyReg s t rd v ∧
      (v.toNat : Int) = ((s.getX rd).toNat + imm.toInt) % 4294967296 ∧ t.pc = s.pc + 2#32) ∧
    (∃ t v, exec (.cLi rd imm) s = .next t ∧ onlyReg s t rd v ∧ v.toInt = imm.toInt ∧
      t.pc = s.pc + 2#32)

/-- 48_compressed.md R229: the link value is pc + 2 (90_conflicts.md C6); `imm` is offset[11:1]. -/
def Obligations.CJalLinksPcPlusTwo : Prop :=
  (∀ h : Parcel, h &&& 0xE003#16 = 0x2001#16 →
    decode16 h = .ok (.cJal (h.extractLsb' 12 1 ++ h.extractLsb' 8 1 ++ h.extractLsb' 9 2 ++
      h.extractLsb' 6 1 ++ h.extractLsb' 7 1 ++ h.extractLsb' 2 1 ++ h.extractLsb' 11 1 ++
      h.extractLsb' 3 3))) ∧
  ∀ (imm : BitVec 11) (s : State),
    ∃ t, exec (.cJal imm) s = .next t ∧ onlyReg s t 1#5 (s.pc + 2#32) ∧
      (t.pc.toNat : Int) = (s.pc.toNat + 2 * imm.toInt) % 4294967296

/-- 48_compressed.md R222, R223: the two entries that are not instructions take IllegalInstruction with the
parcel as value. -/
def Obligations.IllegalAndReservedTrap : Prop :=
  (∀ h : Parcel, decode16 h = .ok .cIllegal ↔ h = 0x0000#16) ∧
  (∀ h : Parcel, h &&& 0xE003#16 = 0x8000#16 →
    decode16 h = .ok (.cReserved (h.extractLsb' 2 11)) ∧
      0b100#3 ++ h.extractLsb' 2 11 ++ 0b00#2 = h) ∧
  (∀ (bits : BitVec 11) (s : State), exec (.cReserved bits) s =
    .next { s with
      halt := .halted .illegalInstruction s.pc ((0b100#3 ++ bits ++ 0b00#2).setWidth 32) }) ∧
  ∀ s : State, exec .cIllegal s = .next { s with halt := .halted .illegalInstruction s.pc 0#32 }

/-- 30_encoding.md R107: each 16-bit instruction does what its expansion does, except that the next pc, and
C.JAL's link value, are pc + 2; an exception is the same exception. -/
def Obligations.CompressedExecutesAsItsExpansion : Prop :=
  (∀ (c e : Instr) (s : State), s.halt = .running → expansionOf c = some e →
    ∃ t, exec e s = .next t ∧
      (t.halt = .running → exec c s = .next { t with pc := s.pc + 2#32 }) ∧
      (t.halt ≠ .running → exec c s = .next t)) ∧
  ∀ (imm : BitVec 11) (s : State),
    ∃ t, exec (.jal 1#5 (imm.signExtend 20)) s = .next t ∧
      exec (.cJal imm) s = .next (t.setX 1#5 (s.pc + 2#32))

/-! ## The memory map and the loaded code -/

/-- 20_memory.md R50: a byte has a permission exactly when a region it lies in grants it; in a map as R50
wants it, a byte of a region has that region's permissions and no others; and with the default map, which is
the one State.reset holds, no step takes an access fault. The first clause also says what a map with
overlapping regions grants, which is the model's choice (log entry 4). -/
def Obligations.MemMapGrantsPermissions : Prop :=
  (∀ (map : MemMap) (k : Access) (a : Word), mapAllows map k a = true ↔ mapGrants map k a) ∧
  (∀ (map : MemMap) (r : Region) (a : Word), mapWf map → r ∈ map →
    r.base.toNat ≤ a.toNat → a.toNat < r.base.toNat + r.size →
      mapAllows map .read a = r.canRead ∧ mapAllows map .write a = r.canWrite ∧
        mapAllows map .execute a = r.canExecute) ∧
  State.reset.memMap = [⟨0x00000000#32, 4294967296, true, true, true⟩] ∧
  ∀ (s t : State) (c : Cause) (epc v : Word),
    s.memMap = [⟨0x00000000#32, 4294967296, true, true, true⟩] →
    step s = .next t → t.halt = .halted c epc v →
      c ≠ .instructionAccessFault ∧ c ≠ .loadAccessFault ∧ c ≠ .storeAccessFault

/-- Right after reset the map and every byte are the loaded ones (10_state.md R35). -/
def Obligations.BootHoldsWhatIsLoaded : Prop :=
  ∀ p : BootParams, LoadedKept p (State.boot p)

/-- 20_memory.md R53, R56: from every state, a step keeps the map and every byte outside `dirty` as loaded;
and where they are so, the parcel or word that is fetched is the one `MEM_INIT` holds at that address. -/
def Obligations.StepKeepsLoadedCode : Prop :=
  ∀ (p : BootParams) (t : State), LoadedKept p t →
    (∀ u, step t = .next u → LoadedKept p u) ∧
    ∀ iw, t.fetch = .got iw → State.fetch { State.boot p with pc := t.pc } = .got iw
end

