-- ==== Sys2Proof/Laws/Decode.lean ====
section
/-! SUPPORT. Each field of each encoding format reads back what was packed into it, and packing the fields of
a word gives the word back: the bits of spec/30_encoding.md R72 to R91 are each used once. -/

namespace Sys2Proof

/-- Bit by bit. -/
theorem ext_bits {n : Nat} {a b : BitVec n} (h : ∀ i, i < n → a.getLsbD i = b.getLsbD i) : a = b :=
  BitVec.eq_of_getLsbD_eq h

section packR
variable (f7 : BitVec 7) (rs2 rs1 : RegIdx) (f3 : BitVec 3) (rd : RegIdx) (op : BitVec 7)

@[simp] theorem opcodeOf_packR : opcodeOf (packR f7 rs2 rs1 f3 rd op) = op := by
  refine ext_bits fun i hi => ?_
  simp only [packR, opcodeOf, BitVec.getLsbD_extractLsb', BitVec.getLsbD_append]
  interval_cases i <;> simp

@[simp] theorem rdOf_packR : rdOf (packR f7 rs2 rs1 f3 rd op) = rd := by
  refine ext_bits fun i hi => ?_
  simp only [packR, rdOf, BitVec.getLsbD_extractLsb', BitVec.getLsbD_append]
  interval_cases i <;> simp

@[simp] theorem funct3Of_packR : funct3Of (packR f7 rs2 rs1 f3 rd op) = f3 := by
  refine ext_bits fun i hi => ?_
  simp only [packR, funct3Of, BitVec.getLsbD_extractLsb', BitVec.getLsbD_append]
  interval_cases i <;> simp

@[simp] theorem rs1Of_packR : rs1Of (packR f7 rs2 rs1 f3 rd op) = rs1 := by
  refine ext_bits fun i hi => ?_
  simp only [packR, rs1Of, BitVec.getLsbD_extractLsb', BitVec.getLsbD_append]
  interval_cases i <;> simp

@[simp] theorem rs2Of_packR : rs2Of (packR f7 rs2 rs1 f3 rd op) = rs2 := by
  refine ext_bits fun i hi => ?_
  simp only [packR, rs2Of, BitVec.getLsbD_extractLsb', BitVec.getLsbD_append]
  interval_cases i <;> simp

@[simp] theorem shamtOf_packR : shamtOf (packR f7 rs2 rs1 f3 rd op) = rs2 := by
  refine ext_bits fun i hi => ?_
  simp only [packR, shamtOf, BitVec.getLsbD_extractLsb', BitVec.getLsbD_append]
  interval_cases i <;> simp

@[simp] theorem funct7Of_packR : funct7Of (packR f7 rs2 rs1 f3 rd op) = f7 := by
  refine ext_bits fun i hi => ?_
  simp only [packR, funct7Of, BitVec.getLsbD_extractLsb', BitVec.getLsbD_append]
  interval_cases i <;> simp

end packR

section packI
variable (imm : BitVec 12) (rs1 : RegIdx) (f3 : BitVec 3) (rd : RegIdx) (op : BitVec 7)

@[simp] theorem opcodeOf_packI : opcodeOf (packI imm rs1 f3 rd op) = op := by
  refine ext_bits fun i hi => ?_
  simp only [packI, opcodeOf, BitVec.getLsbD_extractLsb', BitVec.getLsbD_append]
  interval_cases i <;> simp

@[simp] theorem rdOf_packI : rdOf (packI imm rs1 f3 rd op) = rd := by
  refine ext_bits fun i hi => ?_
  simp only [packI, rdOf, BitVec.getLsbD_extractLsb', BitVec.getLsbD_append]
  interval_cases i <;> simp

@[simp] theorem funct3Of_packI : funct3Of (packI imm rs1 f3 rd op) = f3 := by
  refine ext_bits fun i hi => ?_
  simp only [packI, funct3Of, BitVec.getLsbD_extractLsb', BitVec.getLsbD_append]
  interval_cases i <;> simp

@[simp] theorem rs1Of_packI : rs1Of (packI imm rs1 f3 rd op) = rs1 := by
  refine ext_bits fun i hi => ?_
  simp only [packI, rs1Of, BitVec.getLsbD_extractLsb', BitVec.getLsbD_append]
  interval_cases i <;> simp

@[simp] theorem immIOf_packI : immIOf (packI imm rs1 f3 rd op) = imm := by
  refine ext_bits fun i hi => ?_
  simp only [packI, immIOf, BitVec.getLsbD_extractLsb', BitVec.getLsbD_append]
  interval_cases i <;> simp

end packI

section packS
variable (imm : BitVec 12) (rs2 rs1 : RegIdx) (f3 : BitVec 3) (op : BitVec 7)

@[simp] theorem opcodeOf_packS : opcodeOf (packS imm rs2 rs1 f3 op) = op := by
  refine ext_bits fun i hi => ?_
  simp only [packS, opcodeOf, BitVec.getLsbD_extractLsb', BitVec.getLsbD_append]
  interval_cases i <;> simp

@[simp] theorem funct3Of_packS : funct3Of (packS imm rs2 rs1 f3 op) = f3 := by
  refine ext_bits fun i hi => ?_
  simp only [packS, funct3Of, BitVec.getLsbD_extractLsb', BitVec.getLsbD_append]
  interval_cases i <;> simp

@[simp] theorem rs1Of_packS : rs1Of (packS imm rs2 rs1 f3 op) = rs1 := by
  refine ext_bits fun i hi => ?_
  simp only [packS, rs1Of, BitVec.getLsbD_extractLsb', BitVec.getLsbD_append]
  interval_cases i <;> simp

@[simp] theorem rs2Of_packS : rs2Of (packS imm rs2 rs1 f3 op) = rs2 := by
  refine ext_bits fun i hi => ?_
  simp only [packS, rs2Of, BitVec.getLsbD_extractLsb', BitVec.getLsbD_append]
  interval_cases i <;> simp

@[simp] theorem immSOf_packS : immSOf (packS imm rs2 rs1 f3 op) = imm := by
  refine ext_bits fun i hi => ?_
  simp only [packS, immSOf, BitVec.getLsbD_extractLsb', BitVec.getLsbD_append]
  interval_cases i <;> simp

end packS

section packB
variable (imm : BitVec 12) (rs2 rs1 : RegIdx) (f3 : BitVec 3) (op : BitVec 7)

@[simp] theorem opcodeOf_packB : opcodeOf (packB imm rs2 rs1 f3 op) = op := by
  refine ext_bits fun i hi => ?_
  simp only [packB, opcodeOf, BitVec.getLsbD_extractLsb', BitVec.getLsbD_append]
  interval_cases i <;> simp

@[simp] theorem funct3Of_packB : funct3Of (packB imm rs2 rs1 f3 op) = f3 := by
  refine ext_bits fun i hi => ?_
  simp only [packB, funct3Of, BitVec.getLsbD_extractLsb', BitVec.getLsbD_append]
  interval_cases i <;> simp

@[simp] theorem rs1Of_packB : rs1Of (packB imm rs2 rs1 f3 op) = rs1 := by
  refine ext_bits fun i hi => ?_
  simp only [packB, rs1Of, BitVec.getLsbD_extractLsb', BitVec.getLsbD_append]
  interval_cases i <;> simp

@[simp] theorem rs2Of_packB : rs2Of (packB imm rs2 rs1 f3 op) = rs2 := by
  refine ext_bits fun i hi => ?_
  simp only [packB, rs2Of, BitVec.getLsbD_extractLsb', BitVec.getLsbD_append]
  interval_cases i <;> simp

@[simp] theorem immBOf_packB : immBOf (packB imm rs2 rs1 f3 op) = imm := by
  refine ext_bits fun i hi => ?_
  simp only [packB, immBOf, BitVec.getLsbD_extractLsb', BitVec.getLsbD_append]
  interval_cases i <;> simp

end packB

section packU
variable (imm : BitVec 20) (rd : RegIdx) (op : BitVec 7)

@[simp] theorem opcodeOf_packU : opcodeOf (packU imm rd op) = op := by
  refine ext_bits fun i hi => ?_
  simp only [packU, opcodeOf, BitVec.getLsbD_extractLsb', BitVec.getLsbD_append]
  interval_cases i <;> simp

@[simp] theorem rdOf_packU : rdOf (packU imm rd op) = rd := by
  refine ext_bits fun i hi => ?_
  simp only [packU, rdOf, BitVec.getLsbD_extractLsb', BitVec.getLsbD_append]
  interval_cases i <;> simp

@[simp] theorem immUOf_packU : immUOf (packU imm rd op) = imm := by
  refine ext_bits fun i hi => ?_
  simp only [packU, immUOf, BitVec.getLsbD_extractLsb', BitVec.getLsbD_append]
  interval_cases i <;> simp

end packU

section packJ
variable (imm : BitVec 20) (rd : RegIdx) (op : BitVec 7)

@[simp] theorem opcodeOf_packJ : opcodeOf (packJ imm rd op) = op := by
  refine ext_bits fun i hi => ?_
  simp only [packJ, opcodeOf, BitVec.getLsbD_extractLsb', BitVec.getLsbD_append]
  interval_cases i <;> simp

@[simp] theorem rdOf_packJ : rdOf (packJ imm rd op) = rd := by
  refine ext_bits fun i hi => ?_
  simp only [packJ, rdOf, BitVec.getLsbD_extractLsb', BitVec.getLsbD_append]
  interval_cases i <;> simp

@[simp] theorem immJOf_packJ : immJOf (packJ imm rd op) = imm := by
  refine ext_bits fun i hi => ?_
  simp only [packJ, immJOf, BitVec.getLsbD_extractLsb', BitVec.getLsbD_append]
  interval_cases i <;> simp

end packJ

section packFence
variable (fm pred succ : BitVec 4) (rs1 : RegIdx) (f3 : BitVec 3) (rd : RegIdx) (op : BitVec 7)

@[simp] theorem opcodeOf_packFence : opcodeOf (packFence fm pred succ rs1 f3 rd op) = op := by
  refine ext_bits fun i hi => ?_
  simp only [packFence, opcodeOf, BitVec.getLsbD_extractLsb', BitVec.getLsbD_append]
  interval_cases i <;> simp

@[simp] theorem rdOf_packFence : rdOf (packFence fm pred succ rs1 f3 rd op) = rd := by
  refine ext_bits fun i hi => ?_
  simp only [packFence, rdOf, BitVec.getLsbD_extractLsb', BitVec.getLsbD_append]
  interval_cases i <;> simp

@[simp] theorem funct3Of_packFence : funct3Of (packFence fm pred succ rs1 f3 rd op) = f3 := by
  refine ext_bits fun i hi => ?_
  simp only [packFence, funct3Of, BitVec.getLsbD_extractLsb', BitVec.getLsbD_append]
  interval_cases i <;> simp

@[simp] theorem rs1Of_packFence : rs1Of (packFence fm pred succ rs1 f3 rd op) = rs1 := by
  refine ext_bits fun i hi => ?_
  simp only [packFence, rs1Of, BitVec.getLsbD_extractLsb', BitVec.getLsbD_append]
  interval_cases i <;> simp

@[simp] theorem fm_packFence : (packFence fm pred succ rs1 f3 rd op).extractLsb' 28 4 = fm := by
  refine ext_bits fun i hi => ?_
  simp only [packFence, BitVec.getLsbD_extractLsb', BitVec.getLsbD_append]
  interval_cases i <;> simp

@[simp] theorem pred_packFence : (packFence fm pred succ rs1 f3 rd op).extractLsb' 24 4 = pred := by
  refine ext_bits fun i hi => ?_
  simp only [packFence, BitVec.getLsbD_extractLsb', BitVec.getLsbD_append]
  interval_cases i <;> simp

@[simp] theorem succ_packFence : (packFence fm pred succ rs1 f3 rd op).extractLsb' 20 4 = succ := by
  refine ext_bits fun i hi => ?_
  simp only [packFence, BitVec.getLsbD_extractLsb', BitVec.getLsbD_append]
  interval_cases i <;> simp

end packFence

section packCIW
variable (f3 : BitVec 3) (imm : BitVec 8) (rd : CRegIdx) (op : BitVec 2)

@[simp] theorem high_packCIW : (packCIW f3 imm rd op).extractLsb' 13 3 = f3 := by
  refine ext_bits fun i hi => ?_
  simp only [packCIW, BitVec.getLsbD_extractLsb', BitVec.getLsbD_append]
  interval_cases i <;> simp

@[simp] theorem low_packCIW : (packCIW f3 imm rd op).extractLsb' 0 2 = op := by
  refine ext_bits fun i hi => ?_
  simp only [packCIW, BitVec.getLsbD_extractLsb', BitVec.getLsbD_append]
  interval_cases i <;> simp

@[simp] theorem cLowRegOf_packCIW : cLowRegOf (packCIW f3 imm rd op) = rd := by
  refine ext_bits fun i hi => ?_
  simp only [packCIW, cLowRegOf, BitVec.getLsbD_extractLsb', BitVec.getLsbD_append]
  interval_cases i <;> simp

@[simp] theorem immCIWOf_packCIW : immCIWOf (packCIW f3 imm rd op) = imm := by
  refine ext_bits fun i hi => ?_
  simp only [packCIW, immCIWOf, BitVec.getLsbD_extractLsb', BitVec.getLsbD_append]
  interval_cases i <;> simp

end packCIW

section packCL
variable (f3 : BitVec 3) (imm : BitVec 5) (rs1 r : CRegIdx) (op : BitVec 2)

@[simp] theorem high_packCL : (packCL f3 imm rs1 r op).extractLsb' 13 3 = f3 := by
  refine ext_bits fun i hi => ?_
  simp only [packCL, BitVec.getLsbD_extractLsb', BitVec.getLsbD_append]
  interval_cases i <;> simp

@[simp] theorem low_packCL : (packCL f3 imm rs1 r op).extractLsb' 0 2 = op := by
  refine ext_bits fun i hi => ?_
  simp only [packCL, BitVec.getLsbD_extractLsb', BitVec.getLsbD_append]
  interval_cases i <;> simp

@[simp] theorem cLowRegOf_packCL : cLowRegOf (packCL f3 imm rs1 r op) = r := by
  refine ext_bits fun i hi => ?_
  simp only [packCL, cLowRegOf, BitVec.getLsbD_extractLsb', BitVec.getLsbD_append]
  interval_cases i <;> simp

@[simp] theorem cRs1Of_packCL : cRs1Of (packCL f3 imm rs1 r op) = rs1 := by
  refine ext_bits fun i hi => ?_
  simp only [packCL, cRs1Of, BitVec.getLsbD_extractLsb', BitVec.getLsbD_append]
  interval_cases i <;> simp

@[simp] theorem immCLOf_packCL : immCLOf (packCL f3 imm rs1 r op) = imm := by
  refine ext_bits fun i hi => ?_
  simp only [packCL, immCLOf, BitVec.getLsbD_extractLsb', BitVec.getLsbD_append]
  interval_cases i <;> simp

end packCL

section packCI
variable (f3 : BitVec 3) (imm : BitVec 6) (rd : RegIdx) (op : BitVec 2)

@[simp] theorem high_packCI : (packCI f3 imm rd op).extractLsb' 13 3 = f3 := by
  refine ext_bits fun i hi => ?_
  simp only [packCI, BitVec.getLsbD_extractLsb', BitVec.getLsbD_append]
  interval_cases i <;> simp

@[simp] theorem low_packCI : (packCI f3 imm rd op).extractLsb' 0 2 = op := by
  refine ext_bits fun i hi => ?_
  simp only [packCI, BitVec.getLsbD_extractLsb', BitVec.getLsbD_append]
  interval_cases i <;> simp

@[simp] theorem cRdOf_packCI : cRdOf (packCI f3 imm rd op) = rd := by
  refine ext_bits fun i hi => ?_
  simp only [packCI, cRdOf, BitVec.getLsbD_extractLsb', BitVec.getLsbD_append]
  interval_cases i <;> simp

@[simp] theorem immCIOf_packCI : immCIOf (packCI f3 imm rd op) = imm := by
  refine ext_bits fun i hi => ?_
  simp only [packCI, immCIOf, BitVec.getLsbD_extractLsb', BitVec.getLsbD_append]
  interval_cases i <;> simp

end packCI

section packCJ
variable (f3 : BitVec 3) (imm : BitVec 11) (op : BitVec 2)

@[simp] theorem high_packCJ : (packCJ f3 imm op).extractLsb' 13 3 = f3 := by
  refine ext_bits fun i hi => ?_
  simp only [packCJ, BitVec.getLsbD_extractLsb', BitVec.getLsbD_append]
  interval_cases i <;> simp

@[simp] theorem low_packCJ : (packCJ f3 imm op).extractLsb' 0 2 = op := by
  refine ext_bits fun i hi => ?_
  simp only [packCJ, BitVec.getLsbD_extractLsb', BitVec.getLsbD_append]
  interval_cases i <;> simp

@[simp] theorem immCJOf_packCJ : immCJOf (packCJ f3 imm op) = imm := by
  refine ext_bits fun i hi => ?_
  simp only [packCJ, immCJOf, BitVec.getLsbD_extractLsb', BitVec.getLsbD_append]
  interval_cases i <;> simp

end packCJ

section packReserved
variable (bits : BitVec 11)

@[simp] theorem high_packReserved : (packReserved bits).extractLsb' 13 3 = 0b100#3 := by
  refine ext_bits fun i hi => ?_
  simp only [packReserved, BitVec.getLsbD_extractLsb', BitVec.getLsbD_append]
  interval_cases i <;> simp

@[simp] theorem low_packReserved : (packReserved bits).extractLsb' 0 2 = 0b00#2 := by
  refine ext_bits fun i hi => ?_
  simp only [packReserved, BitVec.getLsbD_extractLsb', BitVec.getLsbD_append]
  interval_cases i <;> simp

@[simp] theorem bits_packReserved : (packReserved bits).extractLsb' 2 11 = bits := by
  refine ext_bits fun i hi => ?_
  simp only [packReserved, BitVec.getLsbD_extractLsb', BitVec.getLsbD_append]
  interval_cases i <;> simp

end packReserved

/-! ## Packing the fields of a word -/

theorem packR_fields (w : Word) :
    packR (funct7Of w) (rs2Of w) (rs1Of w) (funct3Of w) (rdOf w) (opcodeOf w) = w := by
  refine ext_bits fun i hi => ?_
  simp only [packR, funct7Of, rs2Of, rs1Of, funct3Of, rdOf, opcodeOf, BitVec.getLsbD_extractLsb', BitVec.getLsbD_append]
  interval_cases i <;> simp

theorem packI_fields (w : Word) :
    packI (immIOf w) (rs1Of w) (funct3Of w) (rdOf w) (opcodeOf w) = w := by
  refine ext_bits fun i hi => ?_
  simp only [packI, immIOf, rs1Of, funct3Of, rdOf, opcodeOf, BitVec.getLsbD_extractLsb', BitVec.getLsbD_append]
  interval_cases i <;> simp

theorem packS_fields (w : Word) :
    packS (immSOf w) (rs2Of w) (rs1Of w) (funct3Of w) (opcodeOf w) = w := by
  refine ext_bits fun i hi => ?_
  simp only [packS, immSOf, rs2Of, rs1Of, funct3Of, opcodeOf, BitVec.getLsbD_extractLsb', BitVec.getLsbD_append]
  interval_cases i <;> simp

theorem packB_fields (w : Word) :
    packB (immBOf w) (rs2Of w) (rs1Of w) (funct3Of w) (opcodeOf w) = w := by
  refine ext_bits fun i hi => ?_
  simp only [packB, immBOf, rs2Of, rs1Of, funct3Of, opcodeOf, BitVec.getLsbD_extractLsb', BitVec.getLsbD_append]
  interval_cases i <;> simp

theorem packU_fields (w : Word) :
    packU (immUOf w) (rdOf w) (opcodeOf w) = w := by
  refine ext_bits fun i hi => ?_
  simp only [packU, immUOf, rdOf, opcodeOf, BitVec.getLsbD_extractLsb', BitVec.getLsbD_append]
  interval_cases i <;> simp

theorem packJ_fields (w : Word) :
    packJ (immJOf w) (rdOf w) (opcodeOf w) = w := by
  refine ext_bits fun i hi => ?_
  simp only [packJ, immJOf, rdOf, opcodeOf, BitVec.getLsbD_extractLsb', BitVec.getLsbD_append]
  interval_cases i <;> simp

theorem packFence_fields (w : Word) :
    packFence (w.extractLsb' 28 4) (w.extractLsb' 24 4) (w.extractLsb' 20 4) (rs1Of w) (funct3Of w) (rdOf w) (opcodeOf w) = w := by
  refine ext_bits fun i hi => ?_
  simp only [packFence, rs1Of, funct3Of, rdOf, opcodeOf, BitVec.getLsbD_extractLsb', BitVec.getLsbD_append]
  interval_cases i <;> simp

theorem packCIW_fields (h : Parcel) :
    packCIW (h.extractLsb' 13 3) (immCIWOf h) (cLowRegOf h) (h.extractLsb' 0 2) = h := by
  refine ext_bits fun i hi => ?_
  simp only [packCIW, immCIWOf, cLowRegOf, BitVec.getLsbD_extractLsb', BitVec.getLsbD_append]
  interval_cases i <;> simp

theorem packCL_fields (h : Parcel) :
    packCL (h.extractLsb' 13 3) (immCLOf h) (cRs1Of h) (cLowRegOf h) (h.extractLsb' 0 2) = h := by
  refine ext_bits fun i hi => ?_
  simp only [packCL, immCLOf, cRs1Of, cLowRegOf, BitVec.getLsbD_extractLsb', BitVec.getLsbD_append]
  interval_cases i <;> simp

theorem packCI_fields (h : Parcel) :
    packCI (h.extractLsb' 13 3) (immCIOf h) (cRdOf h) (h.extractLsb' 0 2) = h := by
  refine ext_bits fun i hi => ?_
  simp only [packCI, immCIOf, cRdOf, BitVec.getLsbD_extractLsb', BitVec.getLsbD_append]
  interval_cases i <;> simp

theorem packCJ_fields (h : Parcel) :
    packCJ (h.extractLsb' 13 3) (immCJOf h) (h.extractLsb' 0 2) = h := by
  refine ext_bits fun i hi => ?_
  simp only [packCJ, immCJOf, BitVec.getLsbD_extractLsb', BitVec.getLsbD_append]
  interval_cases i <;> simp

theorem packReserved_fields (h : Parcel) (h1 : h.extractLsb' 13 3 = 0b100#3) (h2 : h.extractLsb' 0 2 = 0b00#2) :
    packReserved (h.extractLsb' 2 11) = h := by
  unfold packReserved
  rw [← h1, ← h2]
  refine ext_bits fun i hi => ?_
  simp only [BitVec.getLsbD_extractLsb', BitVec.getLsbD_append]
  interval_cases i <;> simp

end Sys2Proof
end

