-- ==== Sys2Proof/Laws/Memory.lean ====
section
/-! SUPPORT. The laws of memory and of the set `dirty`: a read after a write, and the canonical forms. -/

namespace Sys2Proof.Machine

/-! ## One byte -/

theorem lookup_erase (m : Memory) (k j : Nat) :
    Memory.lookup (Memory.erase m k) j = if j = k then unlistedByte else Memory.lookup m j := by
  induction m with
  | nil => simp [Memory.erase, Memory.lookup]
  | cons c m ih =>
    obtain ⟨a, b⟩ := c
    by_cases h : a = k
    · subst h; simp only [Memory.erase, if_true, ih, Memory.lookup]; grind
    · simp only [Memory.erase, h, if_false, Memory.lookup, ih]; grind

theorem lookup_insert (m : Memory) (k j : Nat) (v : Byte) (hk : Memory.lookup m k = unlistedByte)
    (hm : ∀ c ∈ m, c.1 ≠ k) :
    Memory.lookup (Memory.insert m k v) j = if j = k then v else Memory.lookup m j := by
  induction m with
  | nil => simp [Memory.insert, Memory.lookup, eq_comm]
  | cons c m ih =>
    obtain ⟨a, b⟩ := c
    have ha : a ≠ k := hm (a, b) (by simp)
    have hm' : ∀ c ∈ m, c.1 ≠ k := fun c hc => hm c (by simp [hc])
    have hk' : Memory.lookup m k = unlistedByte := by simpa [Memory.lookup, ha] using hk
    unfold Memory.insert
    split
    · simp only [Memory.lookup]; grind
    · simp only [Memory.lookup, ih hk' hm']; grind

theorem erase_keys_ne (m : Memory) (k : Nat) : ∀ c ∈ Memory.erase m k, c.1 ≠ k := by
  induction m with
  | nil => simp [Memory.erase]
  | cons c m ih =>
    obtain ⟨a, b⟩ := c
    unfold Memory.erase
    split
    · exact ih
    · rintro c hc
      rcases List.mem_cons.1 hc with rfl | hc
      · assumption
      · exact ih c hc

/-- A read of one byte after a write of one byte, in every memory. -/
theorem byteAt_setByte (m : Memory) (a b : Word) (v : Byte) :
    (m.setByte a v).byteAt b = if b = a then v else m.byteAt b := by
  have hab : b.toNat = a.toNat ↔ b = a := BitVec.toNat_inj
  unfold Memory.setByte Memory.byteAt
  split
  · rename_i hv
    rw [lookup_erase]
    simp only [hab, hv]
  · rw [lookup_insert _ _ _ _ (by simp [lookup_erase]) (erase_keys_ne m _), lookup_erase]
    by_cases h : b = a
    · simp [h]
    · simp [h, hab]

/-! ## The canonical form -/

theorem erase_sublist (m : Memory) (k : Nat) : (Memory.erase m k).Sublist m := by
  induction m with
  | nil => simp [Memory.erase]
  | cons c m ih =>
    obtain ⟨a, b⟩ := c
    unfold Memory.erase
    split
    · exact ih.trans (List.sublist_cons_self _ _)
    · exact ih.cons_cons _

theorem mem_insert (m : Memory) (k : Nat) (v : Byte) (c : Host.Cell) :
    c ∈ Memory.insert m k v ↔ c = (k, v) ∨ c ∈ m := by
  induction m with
  | nil => simp [Memory.insert]
  | cons d m ih =>
    obtain ⟨a, b⟩ := d
    unfold Memory.insert
    split
    · simp
    · simp only [List.mem_cons, ih]; tauto

theorem insert_pairwise (m : Memory) (k : Nat) (v : Byte)
    (h : m.Pairwise (fun c d => c.1 < d.1)) (hk : ∀ c ∈ m, c.1 ≠ k) :
    (Memory.insert m k v).Pairwise (fun c d => c.1 < d.1) := by
  induction m with
  | nil => simp [Memory.insert]
  | cons d m ih =>
    obtain ⟨a, b⟩ := d
    have ha : a ≠ k := hk (a, b) (by simp)
    obtain ⟨h1, h2⟩ := List.pairwise_cons.1 h
    unfold Memory.insert
    split
    · rename_i hlt
      refine List.pairwise_cons.2 ⟨?_, h⟩
      rintro c hc
      rcases List.mem_cons.1 hc with rfl | hc
      · exact hlt
      · exact hlt.trans (h1 c hc)
    · refine List.pairwise_cons.2 ⟨?_, ih h2 fun c hc => hk c (by simp [hc])⟩
      intro c hc
      rcases (mem_insert m k v c).1 hc with rfl | hc
      · show a < k; omega
      · exact h1 c hc

/-- A write of one byte keeps the canonical form. -/
theorem setByte_wf (m : Memory) (a : Word) (v : Byte) (h : m.wf) : (m.setByte a v).wf := by
  obtain ⟨hp, hc⟩ := h
  have hs := erase_sublist m a.toNat
  have he : (Memory.erase m a.toNat).wf :=
    ⟨hp.sublist hs, fun c h => hc c (hs.subset h)⟩
  unfold Memory.setByte
  split
  · exact he
  · rename_i hv
    refine ⟨insert_pairwise _ _ _ he.1 (erase_keys_ne m _), fun c h => ?_⟩
    rcases (mem_insert _ _ _ c).1 h with rfl | h
    · exact ⟨a.isLt, hv⟩
    · exact he.2 c h

/-- A little-endian write keeps the canonical form. -/
theorem writeLE_wf (m : Memory) (addr : Word) (n : Width) (v : BitVec n.bits) (h : m.wf) :
    (m.writeLE addr n v).wf := by
  cases n <;> simp only [Memory.writeLE] <;> repeat' first | exact h | apply setByte_wf

/-! ## `dirty` -/

theorem mem_dirtyInsert (l : List Nat) (k j : Nat) : j ∈ dirtyInsert l k ↔ j = k ∨ j ∈ l := by
  induction l with
  | nil => simp [dirtyInsert]
  | cons a l ih =>
    unfold dirtyInsert
    split
    · simp
    · split
      · rename_i h; subst h; simp
      · simp only [List.mem_cons, ih]; tauto

theorem dirtyInsert_wf (l : List Nat) (a : Word) (h : dirtyWf l) : dirtyWf (dirtyInsert l a.toNat) := by
  refine ⟨?_, fun j hj => ?_⟩
  · obtain ⟨h, -⟩ := h
    induction l with
    | nil => simp [dirtyInsert]
    | cons b l ih =>
      obtain ⟨h1, h2⟩ := List.pairwise_cons.1 h
      unfold dirtyInsert
      split
      · rename_i hlt
        refine List.pairwise_cons.2 ⟨fun c hc => ?_, h⟩
        rcases List.mem_cons.1 hc with rfl | hc
        · exact hlt
        · exact hlt.trans (h1 c hc)
      · split
        · exact h
        · refine List.pairwise_cons.2 ⟨fun c hc => ?_, ih h2⟩
          rcases (mem_dirtyInsert _ _ _).1 hc with rfl | hc
          · omega
          · exact h1 c hc
  · rcases (mem_dirtyInsert _ _ _).1 hj with rfl | hj
    · exact a.isLt
    · exact h.2 j hj

theorem mem_foldl_dirtyInsert (as : List Word) (d : List Nat) (j : Nat) :
    j ∈ as.foldl (fun l a => dirtyInsert l a.toNat) d ↔ (∃ a ∈ as, a.toNat = j) ∨ j ∈ d := by
  induction as generalizing d with
  | nil => simp
  | cons a as ih => simp only [List.foldl_cons, ih, mem_dirtyInsert, List.mem_cons]; grind

/-- The addresses of an access, and only they, are added. -/
theorem mem_dirtyAdd (d : List Nat) (addr : Word) (n j : Nat) :
    j ∈ dirtyAdd d addr n ↔ (∃ k < n, (addr + BitVec.ofNat 32 k).toNat = j) ∨ j ∈ d := by
  simp [dirtyAdd, touched, mem_foldl_dirtyInsert]

theorem dirtyAdd_wf (d : List Nat) (addr : Word) (n : Nat) (h : dirtyWf d) :
    dirtyWf (dirtyAdd d addr n) := by
  unfold dirtyAdd
  generalize touched addr n = as
  induction as generalizing d with
  | nil => exact h
  | cons a as ih => exact ih _ (dirtyInsert_wf d a h)

theorem dirtyAny_iff (d : List Nat) (addr : Word) (n : Nat) :
    dirtyAny d addr n = true ↔ ∃ k < n, (addr + BitVec.ofNat 32 k).toNat ∈ d := by
  simp [dirtyAny, touched]

theorem mapAllowsAll_iff (map : MemMap) (k : Access) (addr : Word) (n : Nat) :
    mapAllowsAll map k addr n = true ↔ ∀ j < n, mapAllows map k (addr + BitVec.ofNat 32 j) = true := by
  simp [mapAllowsAll, touched]

end Sys2Proof.Machine
end

