-- ==== Sys2Proof/Laws/State.lean ====
section
/-! SUPPORT. What the register, pc and exception operations do to each part of the state. -/

namespace Sys2Proof.Machine

theorem regIdx_toNat_pos {r : RegIdx} (h : r ≠ 0#5) : 0 < r.toNat := by
  rcases Nat.eq_zero_or_pos r.toNat with h0 | h0
  · exact absurd (BitVec.eq_of_toNat_eq h0) h
  · exact h0

@[simp] theorem getX_zero (s : State) : s.getX 0#5 = 0#32 := rfl

@[simp] theorem setX_zero (s : State) (v : Word) : s.setX 0#5 v = s := rfl

/-- One read after one write, x0 included. -/
theorem getX_setX (s : State) (rd r : RegIdx) (v : Word) :
    (s.setX rd v).getX r = if r = 0#5 then 0#32 else if r = rd then v else s.getX r := by
  by_cases hr : r = 0#5
  · simp [State.getX, hr]
  by_cases hd : rd = 0#5
  · subst hd; simp [hr]
  have h1 := regIdx_toNat_pos hr
  have h2 := regIdx_toNat_pos hd
  simp only [State.getX, State.setX, hr, hd, if_false]
  rw [Vector.getElem_set]
  by_cases he : r = rd
  · subst he; simp
  · have : ¬ rd.toNat - 1 = r.toNat - 1 := fun h => he (BitVec.eq_of_toNat_eq (by omega))
    simp [this, he]

section setX
variable (s : State) (rd : RegIdx) (v : Word)
@[simp] theorem setX_pc : (s.setX rd v).pc = s.pc := by unfold State.setX; split <;> rfl
@[simp] theorem setX_mem : (s.setX rd v).mem = s.mem := by unfold State.setX; split <;> rfl
@[simp] theorem setX_halt : (s.setX rd v).halt = s.halt := by unfold State.setX; split <;> rfl
@[simp] theorem setX_dirty : (s.setX rd v).dirty = s.dirty := by unfold State.setX; split <;> rfl
@[simp] theorem setX_memMap : (s.setX rd v).memMap = s.memMap := by unfold State.setX; split <;> rfl
@[simp] theorem setX_mode : (s.setX rd v).mode = s.mode := by unfold State.setX; split <;> rfl
end setX

section setPc
variable (s : State) (t : Word)
@[simp] theorem setPc_pc : (s.setPc t).pc = t := rfl
@[simp] theorem setPc_x : (s.setPc t).x = s.x := rfl
@[simp] theorem setPc_mem : (s.setPc t).mem = s.mem := rfl
@[simp] theorem setPc_halt : (s.setPc t).halt = s.halt := rfl
@[simp] theorem setPc_dirty : (s.setPc t).dirty = s.dirty := rfl
@[simp] theorem setPc_memMap : (s.setPc t).memMap = s.memMap := rfl
@[simp] theorem setPc_mode : (s.setPc t).mode = s.mode := rfl
@[simp] theorem setPc_getX (r : RegIdx) : (s.setPc t).getX r = s.getX r := rfl
end setPc

section advance
variable (s : State) (n : Word)
@[simp] theorem advance_pc : (s.advance n).pc = s.pc + n := rfl
@[simp] theorem advance_x : (s.advance n).x = s.x := rfl
@[simp] theorem advance_mem : (s.advance n).mem = s.mem := rfl
@[simp] theorem advance_halt : (s.advance n).halt = s.halt := rfl
@[simp] theorem advance_dirty : (s.advance n).dirty = s.dirty := rfl
@[simp] theorem advance_memMap : (s.advance n).memMap = s.memMap := rfl
@[simp] theorem advance_mode : (s.advance n).mode = s.mode := rfl
@[simp] theorem advance_getX (r : RegIdx) : (s.advance n).getX r = s.getX r := rfl
end advance

section raise
variable (s : State) (t : Trap)
@[simp] theorem raise_pc : (s.raise t).pc = s.pc := rfl
@[simp] theorem raise_x : (s.raise t).x = s.x := rfl
@[simp] theorem raise_mem : (s.raise t).mem = s.mem := rfl
@[simp] theorem raise_halt : (s.raise t).halt = .halted t.cause s.pc t.tval := rfl
@[simp] theorem raise_dirty : (s.raise t).dirty = s.dirty := rfl
@[simp] theorem raise_memMap : (s.raise t).memMap = s.memMap := rfl
@[simp] theorem raise_mode : (s.raise t).mode = s.mode := rfl
@[simp] theorem raise_getX (r : RegIdx) : (s.raise t).getX r = s.getX r := rfl
end raise

section boot
variable (p : BootParams)
@[simp] theorem boot_pc : (State.boot p).pc = p.resetPc := rfl
@[simp] theorem boot_x : (State.boot p).x = p.x := rfl
@[simp] theorem boot_mem : (State.boot p).mem = p.memInit := rfl
@[simp] theorem boot_halt : (State.boot p).halt = .running := rfl
@[simp] theorem boot_dirty : (State.boot p).dirty = [] := rfl
@[simp] theorem boot_memMap : (State.boot p).memMap = p.memMap := rfl
@[simp] theorem boot_mode : (State.boot p).mode = .single := rfl
end boot

/-- Two states are equal when every part of them is. -/
theorem State.ext_parts {s t : State} (hpc : s.pc = t.pc) (hx : s.x = t.x) (hm : s.mem = t.mem)
    (hh : s.halt = t.halt) (hd : s.dirty = t.dirty) (hp : s.memMap = t.memMap)
    (ho : s.mode = t.mode) : s = t := by
  cases s; cases t; simp_all

end Sys2Proof.Machine
end

