-- ==== Sys2Proof/Laws/Ops.lean ====
section
/-! SUPPORT. For each shared operation, once, everything it can do. -/

namespace Sys2Proof.Machine

/-! ## Permissions -/

/-- The machine's check of one byte, in the terms of R50. -/
theorem mapAllows_iff_mapGrants (map : MemMap) (k : Access) (a : Word) :
    mapAllows map k a = true ↔ mapGrants map k a := by
  cases k <;> simp [mapAllows, mapGrants, regionCovers, regionGrants, and_assoc]

/-- The machine's check of an access, in the terms of R50. -/
theorem mapAllowsAll_iff_permitted (s : State) (k : Access) (addr : Word) (n : Nat) :
    mapAllowsAll s.memMap k addr n = true ↔ permitted s k addr n := by
  simp only [mapAllowsAll_iff, mapAllows_iff_mapGrants, permitted]

/-! ## MemRead and MemWrite -/

/-- MemRead, by cases, in the order of R59. -/
theorem memRead_cases (s : State) (addr : Word) (n : Width) :
    (addr.toNat % n.bytes ≠ 0 ∧ s.memRead addr n = .error ⟨.loadAddressMisaligned, addr⟩) ∨
    (addr.toNat % n.bytes = 0 ∧ ¬ permitted s .read addr n.bytes ∧
      s.memRead addr n = .error ⟨.loadAccessFault, addr⟩) ∨
    (addr.toNat % n.bytes = 0 ∧ permitted s .read addr n.bytes ∧
      s.memRead addr n = .ok (s.mem.readLE addr n)) := by
  have hp : permitted s .read addr n.bytes ↔ mapAllowsAll s.memMap .read addr n.bytes = true :=
    (mapAllowsAll_iff_permitted _ _ _ _).symm
  unfold State.memRead
  by_cases h1 : addr.toNat % n.bytes = 0
  · by_cases h2 : mapAllowsAll s.memMap .read addr n.bytes = true <;> simp [h1, h2, hp]
  · simp [h1]

/-- MemWrite, by cases, in the order of R59. -/
theorem memWrite_cases (s : State) (addr : Word) (n : Width) (v : BitVec n.bits) :
    (addr.toNat % n.bytes ≠ 0 ∧ s.memWrite addr n v = .error ⟨.storeAddressMisaligned, addr⟩) ∨
    (addr.toNat % n.bytes = 0 ∧ ¬ permitted s .write addr n.bytes ∧
      s.memWrite addr n v = .error ⟨.storeAccessFault, addr⟩) ∨
    (addr.toNat % n.bytes = 0 ∧ permitted s .write addr n.bytes ∧
      s.memWrite addr n v =
        .ok { s with mem := s.mem.writeLE addr n v, dirty := dirtyAdd s.dirty addr n.bytes }) := by
  have hp : permitted s .write addr n.bytes ↔ mapAllowsAll s.memMap .write addr n.bytes = true :=
    (mapAllowsAll_iff_permitted _ _ _ _).symm
  unfold State.memWrite
  by_cases h1 : addr.toNat % n.bytes = 0
  · by_cases h2 : mapAllowsAll s.memMap .write addr n.bytes = true <;> simp [h1, h2, hp]
  · simp [h1]

/-- A load: one of two exceptions, or the register written (43_loads.md R150). -/
theorem load_cases (s : State) (rd : RegIdx) (addr : Word) (n : Width) (ext : BitVec n.bits → Word)
    (ilen : Word) :
    (addr.toNat % n.bytes ≠ 0 ∧
      s.load rd addr n ext ilen = .next (s.raise ⟨.loadAddressMisaligned, addr⟩)) ∨
    (addr.toNat % n.bytes = 0 ∧ ¬ permitted s .read addr n.bytes ∧
      s.load rd addr n ext ilen = .next (s.raise ⟨.loadAccessFault, addr⟩)) ∨
    (addr.toNat % n.bytes = 0 ∧ permitted s .read addr n.bytes ∧
      s.load rd addr n ext ilen = s.writeReg rd (ext (s.mem.readLE addr n)) ilen) := by
  unfold State.load
  rcases memRead_cases s addr n with ⟨h, e⟩ | ⟨h, h', e⟩ | ⟨h, h', e⟩
  · simp [h, e]
  · simp [h, h', e]
  · simp [h, h', e]

/-- A store: one of two exceptions, or the bytes written (44_stores.md R160). -/
theorem store_cases (s : State) (addr : Word) (n : Width) (v : BitVec n.bits) (ilen : Word) :
    (addr.toNat % n.bytes ≠ 0 ∧
      s.store addr n v ilen = .next (s.raise ⟨.storeAddressMisaligned, addr⟩)) ∨
    (addr.toNat % n.bytes = 0 ∧ ¬ permitted s .write addr n.bytes ∧
      s.store addr n v ilen = .next (s.raise ⟨.storeAccessFault, addr⟩)) ∨
    (addr.toNat % n.bytes = 0 ∧ permitted s .write addr n.bytes ∧
      s.store addr n v ilen =
        .next (State.advance { s with
          mem := s.mem.writeLE addr n v, dirty := dirtyAdd s.dirty addr n.bytes } ilen)) := by
  unfold State.store
  rcases memWrite_cases s addr n v with ⟨h, e⟩ | ⟨h, h', e⟩ | ⟨h, h', e⟩
  · simp [h, e]
  · simp [h, h', e]
  · simp [h, h', e]

/-! ## Writing a register, jumping, branching -/

/-- The state writeReg answers differs in `pc` and in `rd` only. -/
theorem onlyReg_writeReg (s : State) (rd : RegIdx) (v ilen : Word) :
    onlyReg s ((s.setX rd v).advance ilen) rd v :=
  ⟨fun r => by simp [getX_setX], ⟨fun a => by simp, by simp⟩, by simp [sameRest]⟩

/-- The state linkAndJump answers differs in `pc` and in `rd` only. -/
theorem onlyReg_linkAndJump (s : State) (rd : RegIdx) (v t : Word) :
    onlyReg s ((s.setX rd v).setPc t) rd v :=
  ⟨fun r => by simp [getX_setX], ⟨fun a => by simp, by simp⟩, by simp [sameRest]⟩

/-- A branch changes `pc` only. -/
theorem onlyPc_setPc (s : State) (t : Word) : onlyPc s (s.setPc t) :=
  ⟨fun _ => rfl, ⟨fun _ => rfl, rfl⟩, rfl, rfl, rfl⟩

/-! ## Fetch and step -/

/-- One parcel, by cases: permission, then `dirty`, then the bits. -/
theorem fetchParcel_cases (s : State) (a : Word) (k : Parcel → Fetched) :
    (¬ permitted s .execute a 2 ∧ s.fetchParcel a k = .noPermission) ∨
    (permitted s .execute a 2 ∧ anyDirty s a 2 ∧ s.fetchParcel a k = .modified) ∨
    (permitted s .execute a 2 ∧ ¬ anyDirty s a 2 ∧ s.fetchParcel a k = k (s.mem.readLE a .half)) := by
  have hp : permitted s .execute a 2 ↔ mapAllowsAll s.memMap .execute a 2 = true :=
    (mapAllowsAll_iff_permitted _ _ _ _).symm
  have hd : anyDirty s a 2 ↔ dirtyAny s.dirty a 2 = true := (dirtyAny_iff _ _ _).symm
  unfold State.fetchParcel
  by_cases h1 : mapAllowsAll s.memMap .execute a 2 = true
  · by_cases h2 : dirtyAny s.dirty a 2 = true <;> simp [h1, h2, hp, hd]
  · simp [h1, hp]

/-- A step of a running hart, by what the fetch gives. -/
theorem step_cases (s : State) (hr : s.halt = .running) :
    (s.fetch = .noPermission ∧ step s = .next (s.raise ⟨.instructionAccessFault, s.pc⟩)) ∨
    (s.fetch = .modified ∧ step s = .refused (.selfModifyingCode s.pc)) ∨
    (∃ iw r, s.fetch = .got iw ∧ decode iw = .error r ∧
      step s = .next (s.raise ⟨.illegalInstruction, instValue iw⟩)) ∨
    (∃ iw i, s.fetch = .got iw ∧ decode iw = .ok i ∧ step s = exec i s) := by
  unfold step State.stepWith
  simp only [hr]
  cases hf : s.fetch with
  | noPermission => simp
  | modified => simp
  | got iw =>
    cases hd : decode iw with
    | error r => simp [State.decodeFetched, hd]
    | ok i => simp [State.decodeFetched, hd]

/-- A halted hart takes no further step. -/
theorem step_halted (s : State) {c : Cause} {epc v : Word} (h : s.halt = .halted c epc v) :
    step s = .fault .hartHalted := by simp [step, h]

/-! ## Every instruction -/

/-- What `exec` can do, for every instruction: it always answers a next state, in which either an exception
was taken and nothing else changed, or a register was written, or bytes were stored, or only `pc`
changed. -/
theorem exec_cases (i : Instr) (s : State) :
    (∃ t, exec i s = .next (s.raise t) ∧ t.cause ≠ .instructionAddressMisaligned) ∨
    (∃ rd v p, exec i s = .next ((s.setX rd v).setPc p)) ∨
    (∃ p, exec i s = .next (s.setPc p)) ∨
    (∃ addr n v p, permitted s .write addr n.bytes ∧ exec i s =
      .next (State.setPc { s with
        mem := s.mem.writeLE addr n v, dirty := dirtyAdd s.dirty addr n.bytes } p)) := by
  have hw : ∀ rd v l, (∃ rd' v' p, s.writeReg rd v l = .next ((s.setX rd' v').setPc p)) :=
    fun rd v l => ⟨rd, v, _, rfl⟩
  have hb : ∀ c o, ∃ p, s.branch c o = .next (s.setPc p) := fun c o =>
    ⟨if c then s.pc + o else s.pc + 4#32, by cases c <;> rfl⟩
  have hl : ∀ rd addr n ext l,
      (∃ t, s.load rd addr n ext l = .next (s.raise t) ∧ t.cause ≠ .instructionAddressMisaligned) ∨
      (∃ rd' v' p, s.load rd addr n ext l = .next ((s.setX rd' v').setPc p)) := by
    intro rd addr n ext l
    rcases load_cases s rd addr n ext l with ⟨-, e⟩ | ⟨-, -, e⟩ | ⟨-, -, e⟩
    · exact .inl ⟨_, e, by simp⟩
    · exact .inl ⟨_, e, by simp⟩
    · exact .inr ⟨rd, _, _, e⟩
  have hs : ∀ addr n v l,
      (∃ t, s.store addr n v l = .next (s.raise t) ∧ t.cause ≠ .instructionAddressMisaligned) ∨
      (∃ addr' n' v' p, permitted s .write addr' n'.bytes ∧ s.store addr n v l =
        .next (State.setPc { s with
          mem := s.mem.writeLE addr' n' v', dirty := dirtyAdd s.dirty addr' n'.bytes } p)) := by
    intro addr n v l
    rcases store_cases s addr n v l with ⟨-, e⟩ | ⟨-, -, e⟩ | ⟨-, hp, e⟩
    · exact .inl ⟨_, e, by simp⟩
    · exact .inl ⟨_, e, by simp⟩
    · exact .inr ⟨addr, n, v, _, hp, e⟩
  have hl' := fun rd addr n ext l => (hl rd addr n ext l).imp id (Or.inl (b :=
    (∃ p, s.load rd addr n ext l = .next (s.setPc p)) ∨
    (∃ addr' n' v p, permitted s .write addr' n'.bytes ∧ s.load rd addr n ext l =
      .next (State.setPc { s with
        mem := s.mem.writeLE addr' n' v, dirty := dirtyAdd s.dirty addr' n'.bytes } p))))
  have hs' := fun addr n v l => (hs addr n v l).imp id
    (fun h => Or.inr (a := ∃ rd v' p, s.store addr n v l = .next ((s.setX rd v').setPc p))
      (Or.inr (a := ∃ p, s.store addr n v l = .next (s.setPc p)) h))
  cases i with
  | lui | auipc | addi | slti | sltiu | xori | ori | andi | slli | srli | srai | add | sub | sll | slt
  | sltu | xor | srl | sra | or | and | cAddi4spn | cAddi | cLi => exact .inr (.inl (hw _ _ _))
  | jal | jalr | cJal => exact .inr (.inl ⟨_, _, _, rfl⟩)
  | beq | bne | blt | bge | bltu | bgeu => exact .inr (.inr (.inl (hb _ _)))
  | fence | cNop => exact .inr (.inr (.inl ⟨_, rfl⟩))
  | ecall | ebreak | cIllegal | cReserved => exact .inl ⟨_, rfl, by simp⟩
  | lb | lh | lw | lbu | lhu | cLw => exact hl' _ _ _ _ _
  | sb | sh | sw | cSw => exact hs' _ _ _ _

end Sys2Proof.Machine
end

