-- ==== Sys2Proof/Laws/PerInstr.lean ====
section
/-! SUPPORT. Facts about every instruction as syntax, one lemma per constructor. -/

namespace Sys2Proof.Laws

/-- The encoding announces its own length: bits 1:0 of a 32-bit encoding are 11, of a 16-bit encoding they
are not (spec/30_encoding.md R70). -/
def LengthBits.Statement (i : Instr) : Prop :=
  match encode i with
  | .word w => w.extractLsb' 0 2 = 0b11#2
  | .parcel h => h.extractLsb' 0 2 ≠ 0b11#2

/-- Bits 1:0 of a word are bits 1:0 of its opcode. -/
theorem LengthBits.of_opcode (w : Word) :
    w.extractLsb' 0 2 = (opcodeOf w).extractLsb' 0 2 := by
  refine ext_bits fun i hi => ?_
  simp only [opcodeOf, BitVec.getLsbD_extractLsb']
  interval_cases i <;> simp

/-- A 32-bit encoding by its opcode. -/
theorem LengthBits.of_word {i : Instr} {w : Word} {op : BitVec 7} (h : encode i = .word w)
    (ho : opcodeOf w = op) (hop : op.extractLsb' 0 2 = 0b11#2) : LengthBits.Statement i := by
  simp only [LengthBits.Statement, h, LengthBits.of_opcode, ho, hop]

/-- A 16-bit encoding by its two lowest bits. -/
theorem LengthBits.of_parcel {i : Instr} {p : Parcel} {op : BitVec 2} (h : encode i = .parcel p)
    (ho : p.extractLsb' 0 2 = op) (hop : op ≠ 0b11#2) : LengthBits.Statement i := by
  simpa only [LengthBits.Statement, h, ho] using hop

theorem LengthBits.lui (rd : RegIdx) (imm : BitVec 20) :
    LengthBits.Statement (.lui rd imm) :=
  LengthBits.of_word rfl (opcodeOf_packU ..) rfl

theorem LengthBits.auipc (rd : RegIdx) (imm : BitVec 20) :
    LengthBits.Statement (.auipc rd imm) :=
  LengthBits.of_word rfl (opcodeOf_packU ..) rfl

theorem LengthBits.jal (rd : RegIdx) (imm : BitVec 20) :
    LengthBits.Statement (.jal rd imm) :=
  LengthBits.of_word rfl (opcodeOf_packJ ..) rfl

theorem LengthBits.jalr (rd rs1 : RegIdx) (imm : BitVec 12) :
    LengthBits.Statement (.jalr rd rs1 imm) :=
  LengthBits.of_word rfl (opcodeOf_packI ..) rfl

theorem LengthBits.beq (rs1 rs2 : RegIdx) (imm : BitVec 12) :
    LengthBits.Statement (.beq rs1 rs2 imm) :=
  LengthBits.of_word rfl (opcodeOf_packB ..) rfl

theorem LengthBits.bne (rs1 rs2 : RegIdx) (imm : BitVec 12) :
    LengthBits.Statement (.bne rs1 rs2 imm) :=
  LengthBits.of_word rfl (opcodeOf_packB ..) rfl

theorem LengthBits.blt (rs1 rs2 : RegIdx) (imm : BitVec 12) :
    LengthBits.Statement (.blt rs1 rs2 imm) :=
  LengthBits.of_word rfl (opcodeOf_packB ..) rfl

theorem LengthBits.bge (rs1 rs2 : RegIdx) (imm : BitVec 12) :
    LengthBits.Statement (.bge rs1 rs2 imm) :=
  LengthBits.of_word rfl (opcodeOf_packB ..) rfl

theorem LengthBits.bltu (rs1 rs2 : RegIdx) (imm : BitVec 12) :
    LengthBits.Statement (.bltu rs1 rs2 imm) :=
  LengthBits.of_word rfl (opcodeOf_packB ..) rfl

theorem LengthBits.bgeu (rs1 rs2 : RegIdx) (imm : BitVec 12) :
    LengthBits.Statement (.bgeu rs1 rs2 imm) :=
  LengthBits.of_word rfl (opcodeOf_packB ..) rfl

theorem LengthBits.lb (rd rs1 : RegIdx) (imm : BitVec 12) :
    LengthBits.Statement (.lb rd rs1 imm) :=
  LengthBits.of_word rfl (opcodeOf_packI ..) rfl

theorem LengthBits.lh (rd rs1 : RegIdx) (imm : BitVec 12) :
    LengthBits.Statement (.lh rd rs1 imm) :=
  LengthBits.of_word rfl (opcodeOf_packI ..) rfl

theorem LengthBits.lw (rd rs1 : RegIdx) (imm : BitVec 12) :
    LengthBits.Statement (.lw rd rs1 imm) :=
  LengthBits.of_word rfl (opcodeOf_packI ..) rfl

theorem LengthBits.lbu (rd rs1 : RegIdx) (imm : BitVec 12) :
    LengthBits.Statement (.lbu rd rs1 imm) :=
  LengthBits.of_word rfl (opcodeOf_packI ..) rfl

theorem LengthBits.lhu (rd rs1 : RegIdx) (imm : BitVec 12) :
    LengthBits.Statement (.lhu rd rs1 imm) :=
  LengthBits.of_word rfl (opcodeOf_packI ..) rfl

theorem LengthBits.sb (rs1 rs2 : RegIdx) (imm : BitVec 12) :
    LengthBits.Statement (.sb rs1 rs2 imm) :=
  LengthBits.of_word rfl (opcodeOf_packS ..) rfl

theorem LengthBits.sh (rs1 rs2 : RegIdx) (imm : BitVec 12) :
    LengthBits.Statement (.sh rs1 rs2 imm) :=
  LengthBits.of_word rfl (opcodeOf_packS ..) rfl

theorem LengthBits.sw (rs1 rs2 : RegIdx) (imm : BitVec 12) :
    LengthBits.Statement (.sw rs1 rs2 imm) :=
  LengthBits.of_word rfl (opcodeOf_packS ..) rfl

theorem LengthBits.addi (rd rs1 : RegIdx) (imm : BitVec 12) :
    LengthBits.Statement (.addi rd rs1 imm) :=
  LengthBits.of_word rfl (opcodeOf_packI ..) rfl

theorem LengthBits.slti (rd rs1 : RegIdx) (imm : BitVec 12) :
    LengthBits.Statement (.slti rd rs1 imm) :=
  LengthBits.of_word rfl (opcodeOf_packI ..) rfl

theorem LengthBits.sltiu (rd rs1 : RegIdx) (imm : BitVec 12) :
    LengthBits.Statement (.sltiu rd rs1 imm) :=
  LengthBits.of_word rfl (opcodeOf_packI ..) rfl

theorem LengthBits.xori (rd rs1 : RegIdx) (imm : BitVec 12) :
    LengthBits.Statement (.xori rd rs1 imm) :=
  LengthBits.of_word rfl (opcodeOf_packI ..) rfl

theorem LengthBits.ori (rd rs1 : RegIdx) (imm : BitVec 12) :
    LengthBits.Statement (.ori rd rs1 imm) :=
  LengthBits.of_word rfl (opcodeOf_packI ..) rfl

theorem LengthBits.andi (rd rs1 : RegIdx) (imm : BitVec 12) :
    LengthBits.Statement (.andi rd rs1 imm) :=
  LengthBits.of_word rfl (opcodeOf_packI ..) rfl

theorem LengthBits.slli (rd rs1 : RegIdx) (shamt : BitVec 5) :
    LengthBits.Statement (.slli rd rs1 shamt) :=
  LengthBits.of_word rfl (opcodeOf_packR ..) rfl

theorem LengthBits.srli (rd rs1 : RegIdx) (shamt : BitVec 5) :
    LengthBits.Statement (.srli rd rs1 shamt) :=
  LengthBits.of_word rfl (opcodeOf_packR ..) rfl

theorem LengthBits.srai (rd rs1 : RegIdx) (shamt : BitVec 5) :
    LengthBits.Statement (.srai rd rs1 shamt) :=
  LengthBits.of_word rfl (opcodeOf_packR ..) rfl

theorem LengthBits.add (rd rs1 rs2 : RegIdx) :
    LengthBits.Statement (.add rd rs1 rs2) :=
  LengthBits.of_word rfl (opcodeOf_packR ..) rfl

theorem LengthBits.sub (rd rs1 rs2 : RegIdx) :
    LengthBits.Statement (.sub rd rs1 rs2) :=
  LengthBits.of_word rfl (opcodeOf_packR ..) rfl

theorem LengthBits.sll (rd rs1 rs2 : RegIdx) :
    LengthBits.Statement (.sll rd rs1 rs2) :=
  LengthBits.of_word rfl (opcodeOf_packR ..) rfl

theorem LengthBits.slt (rd rs1 rs2 : RegIdx) :
    LengthBits.Statement (.slt rd rs1 rs2) :=
  LengthBits.of_word rfl (opcodeOf_packR ..) rfl

theorem LengthBits.sltu (rd rs1 rs2 : RegIdx) :
    LengthBits.Statement (.sltu rd rs1 rs2) :=
  LengthBits.of_word rfl (opcodeOf_packR ..) rfl

theorem LengthBits.xor (rd rs1 rs2 : RegIdx) :
    LengthBits.Statement (.xor rd rs1 rs2) :=
  LengthBits.of_word rfl (opcodeOf_packR ..) rfl

theorem LengthBits.srl (rd rs1 rs2 : RegIdx) :
    LengthBits.Statement (.srl rd rs1 rs2) :=
  LengthBits.of_word rfl (opcodeOf_packR ..) rfl

theorem LengthBits.sra (rd rs1 rs2 : RegIdx) :
    LengthBits.Statement (.sra rd rs1 rs2) :=
  LengthBits.of_word rfl (opcodeOf_packR ..) rfl

theorem LengthBits.or (rd rs1 rs2 : RegIdx) :
    LengthBits.Statement (.or rd rs1 rs2) :=
  LengthBits.of_word rfl (opcodeOf_packR ..) rfl

theorem LengthBits.and (rd rs1 rs2 : RegIdx) :
    LengthBits.Statement (.and rd rs1 rs2) :=
  LengthBits.of_word rfl (opcodeOf_packR ..) rfl

theorem LengthBits.fence (fm pred succ : BitVec 4) (rs1 rd : RegIdx) :
    LengthBits.Statement (.fence fm pred succ rs1 rd) :=
  LengthBits.of_word rfl (opcodeOf_packFence ..) rfl

theorem LengthBits.ecall :
    LengthBits.Statement .ecall :=
  LengthBits.of_word rfl rfl rfl

theorem LengthBits.ebreak :
    LengthBits.Statement .ebreak :=
  LengthBits.of_word rfl rfl rfl

theorem LengthBits.cIllegal :
    LengthBits.Statement .cIllegal :=
  LengthBits.of_parcel rfl rfl (by decide)

theorem LengthBits.cNop :
    LengthBits.Statement .cNop :=
  LengthBits.of_parcel rfl rfl (by decide)

theorem LengthBits.cAddi4spn (rd : CRegIdx) (nzuimm : BitVec 8) :
    LengthBits.Statement (.cAddi4spn rd nzuimm) :=
  LengthBits.of_parcel rfl (low_packCIW ..) (by decide)

theorem LengthBits.cLw (rd rs1 : CRegIdx) (uimm : BitVec 5) :
    LengthBits.Statement (.cLw rd rs1 uimm) :=
  LengthBits.of_parcel rfl (low_packCL ..) (by decide)

theorem LengthBits.cReserved (bits : BitVec 11) :
    LengthBits.Statement (.cReserved bits) :=
  LengthBits.of_parcel rfl (low_packReserved ..) (by decide)

theorem LengthBits.cSw (rs1 rs2 : CRegIdx) (uimm : BitVec 5) :
    LengthBits.Statement (.cSw rs1 rs2 uimm) :=
  LengthBits.of_parcel rfl (low_packCL ..) (by decide)

theorem LengthBits.cAddi (rd : RegIdx) (nzimm : BitVec 6) :
    LengthBits.Statement (.cAddi rd nzimm) :=
  LengthBits.of_parcel rfl (low_packCI ..) (by decide)

theorem LengthBits.cJal (imm : BitVec 11) :
    LengthBits.Statement (.cJal imm) :=
  LengthBits.of_parcel rfl (low_packCJ ..) (by decide)

theorem LengthBits.cLi (rd : RegIdx) (imm : BitVec 6) :
    LengthBits.Statement (.cLi rd imm) :=
  LengthBits.of_parcel rfl (low_packCI ..) (by decide)

end Sys2Proof.Laws
end

