-- ==== Sys2Proof/Tests/Slice0.lean ====
section
/-! SUPPORT. Tests. The words, the start states and the results are those of spec/95_test_vectors.md (each
test names its vectors), which the spec worked out without this model. The last part shows, for every
statement with hypotheses, a state and operands that meet them. -/

namespace Sys2Proof.Tests
open Sys2Proof.Machine

/-! ## WellFormed refuses what no word encodes -/

theorem test_wellFormed_refuses_zero_nzuimm : (Instr.cAddi4spn 1#3 0#8).wellFormed = false := by decide
theorem test_wellFormed_refuses_cAddi_x0 : (Instr.cAddi 0#5 5#6).wellFormed = false := by decide
theorem test_wellFormed_refuses_cAddi_zero : (Instr.cAddi 5#5 0#6).wellFormed = false := by decide
theorem test_wellFormed_refuses_cLi_x0 : (Instr.cLi 0#5 1#6).wellFormed = false := by decide

/-! ## Decoding: every constructor, from a word of the vectors -/

/-- V1, V9, V14, V22. -/
theorem test_decode_upper_and_jumps :
    decodeTableWord 32 0x123452B7 = some (.lui 5#5 0x12345#20) ∧
    decodeTableWord 32 0x00001517 = some (.auipc 10#5 0x00001#20) ∧
    decodeTableWord 32 0x800002EF = some (.jal 5#5 0x80000#20) ∧
    decodeTableWord 32 0x7FFFF2EF = some (.jal 5#5 0x7FFFF#20) ∧
    decodeTableWord 32 0x800280E7 = some (.jalr 1#5 5#5 0x800#12) := by decide

/-- V43, V46, V32, V48, V49, V50: an offset of -4096 is offset[12:1] = 0x800, of -4 is 0xFFE. -/
theorem test_decode_branches :
    decodeTableWord 32 0x80000063 = some (.beq 0#5 0#5 0x800#12) ∧
    decodeTableWord 32 0xFE209EE3 = some (.bne 1#5 2#5 0xFFE#12) ∧
    decodeTableWord 32 0x0020C863 = some (.blt 1#5 2#5 0x008#12) ∧
    decodeTableWord 32 0x0010D163 = some (.bge 1#5 1#5 0x001#12) ∧
    decodeTableWord 32 0x0000E463 = some (.bltu 1#5 0#5 0x004#12) ∧
    decodeTableWord 32 0x0000F463 = some (.bgeu 1#5 0#5 0x004#12) := by decide

/-- V54, V65, V60, V69, V66, V74, V75, V77. -/
theorem test_decode_loads_and_stores :
    decodeTableWord 32 0x00610083 = some (.lb 1#5 2#5 6#12) ∧
    decodeTableWord 32 0x00111083 = some (.lh 1#5 2#5 1#12) ∧
    decodeTableWord 32 0xFFC12083 = some (.lw 1#5 2#5 0xFFC#12) ∧
    decodeTableWord 32 0xFFF04083 = some (.lbu 1#5 0#5 0xFFF#12) ∧
    decodeTableWord 32 0x00315083 = some (.lhu 1#5 2#5 3#12) ∧
    decodeTableWord 32 0x001101A3 = some (.sb 2#5 1#5 3#12) ∧
    decodeTableWord 32 0x00111123 = some (.sh 2#5 1#5 2#12) ∧
    decodeTableWord 32 0xFE112E23 = some (.sw 2#5 1#5 0xFFC#12) := by decide

/-- V89, V94, V103, V105, V107, V109, V112, V114, V117. -/
theorem test_decode_op_imm :
    decodeTableWord 32 0x80010093 = some (.addi 1#5 2#5 0x800#12) ∧
    decodeTableWord 32 0xFFF12093 = some (.slti 1#5 2#5 0xFFF#12) ∧
    decodeTableWord 32 0x80013093 = some (.sltiu 1#5 2#5 0x800#12) ∧
    decodeTableWord 32 0x55514093 = some (.xori 1#5 2#5 0x555#12) ∧
    decodeTableWord 32 0x80016093 = some (.ori 1#5 2#5 0x800#12) ∧
    decodeTableWord 32 0xFF017093 = some (.andi 1#5 2#5 0xFF0#12) ∧
    decodeTableWord 32 0x01F11093 = some (.slli 1#5 2#5 31#5) ∧
    decodeTableWord 32 0x00415093 = some (.srli 1#5 2#5 4#5) ∧
    decodeTableWord 32 0x40415093 = some (.srai 1#5 2#5 4#5) := by decide

/-- V124, V130, V131, V134, V141, V142, V144, V146, V149, V150. -/
theorem test_decode_op :
    decodeTableWord 32 0x002081B3 = some (.add 3#5 1#5 2#5) ∧
    decodeTableWord 32 0x402001B3 = some (.sub 3#5 0#5 2#5) ∧
    decodeTableWord 32 0x002091B3 = some (.sll 3#5 1#5 2#5) ∧
    decodeTableWord 32 0x0020A1B3 = some (.slt 3#5 1#5 2#5) ∧
    decodeTableWord 32 0x002031B3 = some (.sltu 3#5 0#5 2#5) ∧
    decodeTableWord 32 0x0020C1B3 = some (.xor 3#5 1#5 2#5) ∧
    decodeTableWord 32 0x0020D1B3 = some (.srl 3#5 1#5 2#5) ∧
    decodeTableWord 32 0x4020D1B3 = some (.sra 3#5 1#5 2#5) ∧
    decodeTableWord 32 0x0020E1B3 = some (.or 3#5 1#5 2#5) ∧
    decodeTableWord 32 0x0020F1B3 = some (.and 3#5 1#5 2#5) := by decide

/-- V157, V159, V161, V162. -/
theorem test_decode_fence_and_system :
    decodeTableWord 32 0x8330000F = some (.fence 8#4 3#4 3#4 0#5 0#5) ∧
    decodeTableWord 32 0xFFFF8F8F = some (.fence 15#4 15#4 15#4 31#5 31#5) ∧
    decodeTableWord 32 0x00000073 = some .ecall ∧
    decodeTableWord 32 0x00100073 = some .ebreak := by decide

/-- V168, V182, V170, V173, V181, V178, V185, V190, V202: 1020 is nzuimm[9:2] = 255, 4 is uimm[6:2] = 1,
124 is 31, -2048 is offset[11:1] = 0x400. -/
theorem test_decode_compressed :
    decodeTableWord 16 0x0000 = some .cIllegal ∧
    decodeTableWord 16 0x0001 = some .cNop ∧
    decodeTableWord 16 0x1FE8 = some (.cAddi4spn 2#3 255#8) ∧
    decodeTableWord 16 0x4044 = some (.cLw 1#3 0#3 1#5) ∧
    decodeTableWord 16 0x9FFC = some (.cReserved 0x7FF#11) ∧
    decodeTableWord 16 0xDFE4 = some (.cSw 7#3 1#3 31#5) ∧
    decodeTableWord 16 0x1501 = some (.cAddi 10#5 0x20#6) ∧
    decodeTableWord 16 0x3001 = some (.cJal 0x400#11) ∧
    decodeTableWord 16 0x5501 = some (.cLi 10#5 0x20#6) := by decide

/-- V194 to V198: each single bit of C.JAL's offset. -/
theorem test_decode_cJal_bits :
    decodeTableWord 16 0x2005 = some (.cJal 16#11) ∧ decodeTableWord 16 0x2801 = some (.cJal 8#11) ∧
    decodeTableWord 16 0x2081 = some (.cJal 32#11) ∧ decodeTableWord 16 0x2041 = some (.cJal 64#11) ∧
    decodeTableWord 16 0x2101 = some (.cJal 512#11) := by decide

/-- V121 to V123, V152 to V154, V160, V163 to V167, V212 to V220: words that are no instruction. -/
theorem test_decode_refuses_words :
    [0x02411093#32, 0x40411093#32, 0x80415093#32, 0x022081B3#32, 0x402091B3#32, 0x8020A1B3#32, 0x0000100F#32,
      0x80000073#32, 0x000000F3#32, 0x30001073#32, 0x30200073#32, 0x10500073#32, 0x00013083#32,
      0x00016083#32, 0x00113023#32, 0x0020A463#32, 0x00009067#32].map decode32 =
      List.replicate 17 (.error .unlistedFunction) ∧
    [0xFFFFFFFF#32, 0x0000001F#32, 0x00002007#32, 0x0000202F#32].map decode32 =
      List.replicate 4 (.error .unlistedOpcode) := by decide

/-- V172, V187, V188, V204, V205 to V210: parcels that are no instruction. -/
theorem test_decode_refuses_parcels :
    [0x0004#16, 0x0015#16, 0x0281#16, 0x4005#16].map decode16 =
      List.replicate 4 (.error .constraintFails) ∧
    [0x0002#16, 0x8082#16, 0xA001#16, 0x6105#16, 0x2000#16, 0xE000#16].map decode16 =
      List.replicate 6 (.error .unlistedParcel) := by decide

/-! ## One step -/

/-- Some bytes from an address on. -/
def fill (m : Memory) (a : Word) : List Byte → Memory
  | [] => m
  | b :: bs => fill (m.setByte a b) (a + 1#32) bs

/-- A running hart with an instruction at `pc`, some registers and some bytes, everything accessible. -/
def hart (pc : Word) (code : InstWord) (regs : List (RegIdx × Word)) (bytes : List (Word × Byte)) : State :=
  regs.foldl (fun s r => s.setX r.1 r.2)
    { pc := pc
      x := Vector.replicate 31 0#32
      mem := bytes.foldl (fun m c => m.setByte c.1 c.2) (fill [] pc code.bytes)
      halt := .running
      dirty := []
      memMap := Config.defaultMemMap
      mode := .single }

/-- DATA of the load and compressed vectors. -/
def data : List (Word × Byte) :=
  [(0x2000#32, 0x80#8), (0x2001#32, 0xFF#8), (0x2002#32, 0x34#8), (0x2003#32, 0x92#8), (0x2004#32, 0x78#8),
    (0x2005#32, 0x56#8), (0x2006#32, 0x34#8), (0x2007#32, 0x12#8)]

/-- The MEM_MAP of V71: code read and execute, data read and write. -/
def twoRegions : MemMap :=
  [{ base := 0x1000#32, size := 0x1000, canRead := true, canWrite := false, canExecute := true },
    { base := 0x2000#32, size := 0x1000, canRead := true, canWrite := true, canExecute := false }]

/-- A register and `pc` of a next state that has not halted. -/
def regPc (r : Result) (i : RegIdx) : Option (Word × Word) :=
  match r with
  | .next t => if t.halt = .running then some (t.getX i, t.pc) else none
  | .fault _ => none
  | .refused _ => none

/-- `n` bytes of memory and `pc` of a next state that has not halted. -/
def bytesPc (r : Result) (a : Word) (n : Nat) : Option (List Byte × Word) :=
  match r with
  | .next t => if t.halt = .running then some ((touched a n).map t.mem.byteAt, t.pc) else none
  | .fault _ => none
  | .refused _ => none

/-- The halt record of a next state. -/
def haltOf (r : Result) : Option Halt :=
  match r with
  | .next t => some t.halt
  | .fault _ => none
  | .refused _ => none

/-- Why a step was refused. -/
def refusedBy (r : Result) : Option Refusal :=
  match r with
  | .next _ => none
  | .fault _ => none
  | .refused e => some e

/-- V2. -/
theorem test_step_lui :
    regPc (step (hart 0x00001000#32 (.word 0xFFFFF2B7#32) [(5#5, 0x00000ABC#32)] [])) 5#5 =
      some (0xFFFFF000#32, 0x00001004#32) := by decide

/-- V9. -/
theorem test_step_auipc :
    regPc (step (hart 0x00001002#32 (.word 0x00001517#32) [] [])) 10#5 =
      some (0x00002002#32, 0x00001006#32) := by decide

/-- V17. -/
theorem test_step_jal :
    regPc (step (hart 0xFFFFFFFC#32 (.word 0x008000EF#32) [(1#5, 0xDEADBEEF#32)] [])) 1#5 =
      some (0x00000000#32, 0x00000004#32) := by decide

/-- V21, V19. -/
theorem test_step_jalr :
    regPc (step (hart 0x00000100#32 (.word 0x000080E7#32) [(1#5, 0x00003000#32)] [])) 1#5 =
      some (0x00000104#32, 0x00003000#32) ∧
    regPc (step (hart 0x00000100#32 (.word 0x003280E7#32) [(5#5, 0x00002000#32)] [])) 1#5 =
      some (0x00000104#32, 0x00002002#32) := by decide

/-- V43. -/
theorem test_step_beq :
    regPc (step (hart 0x00002000#32 (.word 0x80000063#32) [] [])) 0#5 =
      some (0x00000000#32, 0x00001000#32) := by decide

/-- V44. -/
theorem test_step_bne :
    regPc (step (hart 0x00002000#32 (.word 0x7E009FE3#32) [(1#5, 0x00000001#32)] [])) 0#5 =
      some (0x00000000#32, 0x00002FFE#32) := by decide

/-- V33. -/
theorem test_step_blt :
    regPc (step (hart 0x00000100#32 (.word 0x0020C863#32) [(1#5, 0x80000000#32), (2#5, 0x7FFFFFFF#32)]
        [])) 0#5 =
      some (0x00000000#32, 0x00000110#32) := by decide

/-- V36. -/
theorem test_step_bge :
    regPc (step (hart 0x00000100#32 (.word 0x0020D863#32) [(1#5, 0x80000000#32), (2#5, 0x7FFFFFFF#32)]
        [])) 0#5 =
      some (0x00000000#32, 0x00000104#32) := by decide

/-- V38. -/
theorem test_step_bltu :
    regPc (step (hart 0x00000100#32 (.word 0x0020E863#32) [(1#5, 0x00000001#32), (2#5, 0xFFFFFFFF#32)]
        [])) 0#5 =
      some (0x00000000#32, 0x00000110#32) := by decide

/-- V42. -/
theorem test_step_bgeu :
    regPc (step (hart 0x00000100#32 (.word 0x0020F863#32) [(1#5, 0x80000000#32), (2#5, 0x7FFFFFFF#32)]
        [])) 0#5 =
      some (0x00000000#32, 0x00000110#32) := by decide

/-- V52. -/
theorem test_step_lb :
    regPc (step (hart 0x00001000#32 (.word 0x00010083#32) [(2#5, 0x00002000#32)] data)) 1#5 =
      some (0xFFFFFF80#32, 0x00001004#32) := by decide

/-- V55. -/
theorem test_step_lh :
    regPc (step (hart 0x00001000#32 (.word 0x00211083#32) [(2#5, 0x00002000#32)] data)) 1#5 =
      some (0xFFFF9234#32, 0x00001004#32) := by decide

/-- V60, V61. -/
theorem test_step_lw :
    regPc (step (hart 0x00001000#32 (.word 0xFFC12083#32) [(2#5, 0x00002008#32)] data)) 1#5 =
      some (0x12345678#32, 0x00001004#32) ∧
    regPc (step (hart 0x00001000#32 (.word 0x00412103#32) [(2#5, 0x00002000#32)] data)) 2#5 =
      some (0x12345678#32, 0x00001004#32) := by decide

/-- V69. -/
theorem test_step_lbu :
    regPc (step (hart 0x00001000#32 (.word 0xFFF04083#32) [] [(0xFFFFFFFF#32, 0xA5#8)])) 1#5 =
      some (0x000000A5#32, 0x00001004#32) := by decide

/-- V56. -/
theorem test_step_lhu :
    regPc (step (hart 0x00001000#32 (.word 0x00215083#32) [(2#5, 0x00002000#32)] data)) 1#5 =
      some (0x00009234#32, 0x00001004#32) := by decide

/-- V79. -/
theorem test_step_sb :
    bytesPc (step (hart 0x00001000#32 (.word 0x00110023#32) [(1#5, 0xFFFFFFAB#32), (2#5, 0x00002001#32)]
        [(0x00002000#32, 0x11#8), (0x00002001#32, 0x22#8), (0x00002002#32, 0x33#8)])) 0x00002001#32 1 =
      some ([0xAB#8], 0x00001004#32) := by decide

/-- V75. -/
theorem test_step_sh :
    bytesPc (step (hart 0x00001000#32 (.word 0x00111123#32) [(1#5, 0x12345678#32), (2#5, 0x00002000#32)]
        [])) 0x00002002#32 2 =
      some ([0x78#8, 0x56#8], 0x00001004#32) := by decide

/-- V77. -/
theorem test_step_sw :
    bytesPc (step (hart 0x00001000#32 (.word 0xFE112E23#32) [(1#5, 0x12345678#32), (2#5, 0x00002000#32)]
        [])) 0x00001FFC#32 4 =
      some ([0x78#8, 0x56#8, 0x34#8, 0x12#8], 0x00001004#32) := by decide

/-- V89. -/
theorem test_step_addi :
    regPc (step (hart 0x00001000#32 (.word 0x80010093#32) [(2#5, 0x80000000#32)] [])) 1#5 =
      some (0x7FFFF800#32, 0x00001004#32) := by decide

/-- V94. -/
theorem test_step_slti :
    regPc (step (hart 0x00001000#32 (.word 0xFFF12093#32) [(2#5, 0xFFFFFFFE#32)] [])) 1#5 =
      some (0x00000001#32, 0x00001004#32) := by decide

/-- V103. -/
theorem test_step_sltiu :
    regPc (step (hart 0x00001000#32 (.word 0x80013093#32) [(2#5, 0x7FFFFFFF#32)] [])) 1#5 =
      some (0x00000001#32, 0x00001004#32) := by decide

/-- V104. -/
theorem test_step_xori :
    regPc (step (hart 0x00001000#32 (.word 0xFFF14093#32) [(2#5, 0x0000FFFF#32)] [])) 1#5 =
      some (0xFFFF0000#32, 0x00001004#32) := by decide

/-- V107. -/
theorem test_step_ori :
    regPc (step (hart 0x00001000#32 (.word 0x80016093#32) [(2#5, 0x00000001#32)] [])) 1#5 =
      some (0xFFFFF801#32, 0x00001004#32) := by decide

/-- V109. -/
theorem test_step_andi :
    regPc (step (hart 0x00001000#32 (.word 0xFF017093#32) [(2#5, 0x1234567F#32)] [])) 1#5 =
      some (0x12345670#32, 0x00001004#32) := by decide

/-- V112. -/
theorem test_step_slli :
    regPc (step (hart 0x00001000#32 (.word 0x01F11093#32) [(2#5, 0x00000003#32)] [])) 1#5 =
      some (0x80000000#32, 0x00001004#32) := by decide

/-- V115. -/
theorem test_step_srli :
    regPc (step (hart 0x00001000#32 (.word 0x01F15093#32) [(2#5, 0x80000000#32)] [])) 1#5 =
      some (0x00000001#32, 0x00001004#32) := by decide

/-- V120. -/
theorem test_step_srai :
    regPc (step (hart 0x00001000#32 (.word 0x40115093#32) [(2#5, 0xFFFFFFFD#32)] [])) 1#5 =
      some (0xFFFFFFFE#32, 0x00001004#32) := by decide

/-- V127. -/
theorem test_step_add :
    regPc (step (hart 0x00001000#32 (.word 0x001080B3#32) [(1#5, 0x00000015#32)] [])) 1#5 =
      some (0x0000002A#32, 0x00001004#32) := by decide

/-- V128. -/
theorem test_step_sub :
    regPc (step (hart 0x00001000#32 (.word 0x402081B3#32) [(1#5, 0x00000000#32), (2#5, 0x00000001#32)]
        [])) 3#5 =
      some (0xFFFFFFFF#32, 0x00001004#32) := by decide

/-- V131. -/
theorem test_step_sll :
    regPc (step (hart 0x00001000#32 (.word 0x002091B3#32) [(1#5, 0x00000001#32), (2#5, 0x00000025#32)]
        [])) 3#5 =
      some (0x00000020#32, 0x00001004#32) := by decide

/-- V134. -/
theorem test_step_slt :
    regPc (step (hart 0x00001000#32 (.word 0x0020A1B3#32) [(1#5, 0xFFFFFFFF#32), (2#5, 0x00000001#32)]
        [])) 3#5 =
      some (0x00000001#32, 0x00001004#32) := by decide

/-- V138. -/
theorem test_step_sltu :
    regPc (step (hart 0x00001000#32 (.word 0x0020B1B3#32) [(1#5, 0xFFFFFFFF#32), (2#5, 0x00000001#32),
        (3#5, 0xDEADBEEF#32)] [])) 3#5 =
      some (0x00000000#32, 0x00001004#32) := by decide

/-- V142. -/
theorem test_step_xor :
    regPc (step (hart 0x00001000#32 (.word 0x0020C1B3#32) [(1#5, 0x0F0F0F0F#32), (2#5, 0x00FF00FF#32)]
        [])) 3#5 =
      some (0x0FF00FF0#32, 0x00001004#32) := by decide

/-- V145. -/
theorem test_step_srl :
    regPc (step (hart 0x00001000#32 (.word 0x0020D1B3#32) [(1#5, 0x80000000#32), (2#5, 0xFFFFFFE4#32)]
        [])) 3#5 =
      some (0x08000000#32, 0x00001004#32) := by decide

/-- V146. -/
theorem test_step_sra :
    regPc (step (hart 0x00001000#32 (.word 0x4020D1B3#32) [(1#5, 0x80000000#32), (2#5, 0x0000001F#32)]
        [])) 3#5 =
      some (0xFFFFFFFF#32, 0x00001004#32) := by decide

/-- V149. -/
theorem test_step_or :
    regPc (step (hart 0x00001000#32 (.word 0x0020E1B3#32) [(1#5, 0x0F0F0F0F#32), (2#5, 0x00FF00FF#32)]
        [])) 3#5 =
      some (0x0FFF0FFF#32, 0x00001004#32) := by decide

/-- V150. -/
theorem test_step_and :
    regPc (step (hart 0x00001000#32 (.word 0x0020F1B3#32) [(1#5, 0x0F0F0F0F#32), (2#5, 0x00FF00FF#32)]
        [])) 3#5 =
      some (0x000F000F#32, 0x00001004#32) := by decide

/-- V159. -/
theorem test_step_fence :
    regPc (step (hart 0x00001000#32 (.word 0xFFFF8F8F#32) [(31#5, 0x00000077#32)] [])) 31#5 =
      some (0x00000077#32, 0x00001004#32) := by decide

/-- V161. -/
theorem test_step_ecall :
    haltOf (step (hart 0x00000120#32 (.word 0x00000073#32) [(10#5, 0x00000007#32)] [])) =
      some (.halted .environmentCall 0x00000120#32 0x00000000#32) := by decide

/-- V162. -/
theorem test_step_ebreak :
    haltOf (step (hart 0x00000124#32 (.word 0x00100073#32) [] [])) =
      some (.halted .breakpoint 0x00000124#32 0x00000124#32) := by decide

/-- V168. -/
theorem test_step_cIllegal :
    haltOf (step (hart 0x00001000#32 (.parcel 0x0000#16) [] [])) =
      some (.halted .illegalInstruction 0x00001000#32 0x00000000#32) := by decide

/-- V182. -/
theorem test_step_cNop :
    regPc (step (hart 0x00000300#32 (.parcel 0x0001#16) [(1#5, 0x00000005#32)] [])) 1#5 =
      some (0x00000005#32, 0x00000302#32) := by decide

/-- V170. -/
theorem test_step_cAddi4spn :
    regPc (step (hart 0x00001000#32 (.parcel 0x1FE8#16) [(2#5, 0x00008000#32)] [])) 10#5 =
      some (0x000083FC#32, 0x00001002#32) := by decide

/-- V174. -/
theorem test_step_cLw :
    regPc (step (hart 0x00001000#32 (.parcel 0x5FFC#16) [(15#5, 0x00002000#32)] [(0x0000207C#32, 0xEF#8),
        (0x0000207D#32, 0xBE#8), (0x0000207E#32, 0xAD#8), (0x0000207F#32, 0xDE#8)])) 15#5 =
      some (0xDEADBEEF#32, 0x00001002#32) := by decide

/-- V181. -/
theorem test_step_cReserved :
    haltOf (step (hart 0x00001000#32 (.parcel 0x9FFC#16) [] [])) =
      some (.halted .illegalInstruction 0x00001000#32 0x00009FFC#32) := by decide

/-- V178. -/
theorem test_step_cSw :
    bytesPc (step (hart 0x00001000#32 (.parcel 0xDFE4#16) [(9#5, 0xCAFEF00D#32), (15#5, 0x00002000#32)]
        [])) 0x0000207C#32 4 =
      some ([0x0D#8, 0xF0#8, 0xFE#8, 0xCA#8], 0x00001002#32) := by decide

/-- V185. -/
theorem test_step_cAddi :
    regPc (step (hart 0x00001000#32 (.parcel 0x1501#16) [(10#5, 0x00000020#32)] [])) 10#5 =
      some (0x00000000#32, 0x00001002#32) := by decide

/-- V190. -/
theorem test_step_cJal :
    regPc (step (hart 0x00001000#32 (.parcel 0x3001#16) [] [])) 1#5 =
      some (0x00001002#32, 0x00000800#32) := by decide

/-- V202. -/
theorem test_step_cLi :
    regPc (step (hart 0x00001000#32 (.parcel 0x5501#16) [] [])) 10#5 =
      some (0xFFFFFFE0#32, 0x00001002#32) := by decide

/-! ## Exceptions, fetch, refusal -/

/-- V63. -/
theorem test_trap_load_misaligned :
    haltOf (step (hart 0x00001000#32 (.word 0x00212083#32) [(1#5, 0xDEADBEEF#32),
        (2#5, 0x00002000#32)] data)) =
      some (.halted .loadAddressMisaligned 0x00001000#32 0x00002002#32) := by decide

/-- V64. -/
theorem test_trap_load_x0_misaligned :
    haltOf (step (hart 0x00001000#32 (.word 0x00112003#32) [(2#5, 0x00002000#32)] data)) =
      some (.halted .loadAddressMisaligned 0x00001000#32 0x00002001#32) := by decide

/-- V71. -/
theorem test_trap_load_permission :
    haltOf (step { hart 0x00001000#32 (.word 0x00012083#32) [(1#5, 0xDEADBEEF#32), (2#5, 0x00003000#32)]
        [] with memMap := twoRegions }) =
      some (.halted .loadAccessFault 0x00001000#32 0x00003000#32) := by decide

/-- V73. -/
theorem test_trap_misaligned_before_permission :
    haltOf (step { hart 0x00001000#32 (.word 0x00112083#32) [(1#5, 0xDEADBEEF#32), (2#5, 0x00003000#32)]
        [] with memMap := twoRegions }) =
      some (.halted .loadAddressMisaligned 0x00001000#32 0x00003001#32) := by decide

/-- V81. -/
theorem test_trap_store_misaligned :
    haltOf (step (hart 0x00001000#32 (.word 0x00112123#32) [(1#5, 0x12345678#32), (2#5, 0x00002000#32)] [])) =
      some (.halted .storeAddressMisaligned 0x00001000#32 0x00002002#32) := by decide

/-- V84. -/
theorem test_trap_store_permission :
    haltOf (step { hart 0x00001000#32 (.word 0x00112023#32) [(1#5, 0x00000001#32), (2#5, 0x00001800#32)]
        [] with memMap := twoRegions }) =
      some (.halted .storeAccessFault 0x00001000#32 0x00001800#32) := by decide

/-- V176. -/
theorem test_trap_cLw_misaligned :
    haltOf (step (hart 0x00001000#32 (.parcel 0x4004#16) [(8#5, 0x00002002#32), (9#5, 0xDEADBEEF#32)] data)) =
      some (.halted .loadAddressMisaligned 0x00001000#32 0x00002002#32) := by decide

/-- V179. -/
theorem test_trap_cSw_misaligned :
    haltOf (step (hart 0x00001000#32 (.parcel 0xC004#16) [(8#5, 0x00002001#32), (9#5, 0x00000001#32)] [])) =
      some (.halted .storeAddressMisaligned 0x00001000#32 0x00002001#32) := by decide

/-- V223. -/
theorem test_trap_fetch_first_parcel :
    haltOf (step { hart 0x00002000#32 (.word 0x00100093#32) [] [] with memMap := twoRegions }) =
      some (.halted .instructionAccessFault 0x00002000#32 0x00002000#32) := by decide

/-- V224. -/
theorem test_trap_fetch_second_parcel :
    haltOf (step { hart 0x00001FFE#32 (.word 0x00100093#32) [] [] with memMap := twoRegions }) =
      some (.halted .instructionAccessFault 0x00001FFE#32 0x00001FFE#32) := by decide

/-- V225. -/
theorem test_fetch_short_at_the_edge :
    regPc (step { hart 0x00001FFE#32 (.parcel 0x0001#16) [] [] with memMap := twoRegions }) 1#5 =
      some (0x00000000#32, 0x00002000#32) := by decide

/-- V222. -/
theorem test_fetch_wraps :
    regPc (step (hart 0xFFFFFFFE#32 (.word 0x00100093#32) [] [])) 1#5 =
      some (0x00000001#32, 0x00000002#32) := by decide

/-- V227. -/
theorem test_fetch_dirty_refused :
    refusedBy (step { hart 0x00001000#32 (.word 0x00100093#32) [] [] with dirty := [0x1002] }) =
        some (.selfModifyingCode 0x00001000#32) := by decide

/-- V228. -/
theorem test_fetch_dirty_not_touched :
    regPc (step { hart 0x00001000#32 (.parcel 0x0001#16) [] [] with dirty := [0x1002] }) 1#5 =
      some (0x00000000#32, 0x00001002#32) := by decide

/-- V212. -/
theorem test_trap_unlisted_word :
    haltOf (step (hart 0x00001000#32 (.word 0xFFFFFFFF#32) [] [])) =
      some (.halted .illegalInstruction 0x00001000#32 0xFFFFFFFF#32) := by decide

/-- V206. -/
theorem test_trap_unlisted_parcel :
    haltOf (step (hart 0x00001000#32 (.parcel 0x8082#16) [(1#5, 0x00000100#32)] [])) =
      some (.halted .illegalInstruction 0x00001000#32 0x00008082#32) := by decide

/-- V172. -/
theorem test_trap_constraint :
    haltOf (step (hart 0x00001000#32 (.parcel 0x0004#16) [(2#5, 0x00008000#32), (9#5, 0xDEADBEEF#32)] [])) =
      some (.halted .illegalInstruction 0x00001000#32 0x00000004#32) := by decide

/-- R34, R256: a halted hart takes no further step. -/
theorem test_halted_takes_no_step (s : State) (h : s.halt = .halted .breakpoint 0x124#32 0x124#32) :
    step s = .fault .hartHalted := step_halted s h

/-- The first step from reset, with nothing placed: the all-zero parcel at RESET_PC. -/
theorem test_step_from_reset :
    haltOf (step State.reset) = some (.halted .illegalInstruction 0x00001000#32 0x00000000#32) := by decide

/-- An instruction placed by withFetchWord runs from reset: V87's word. -/
theorem test_withFetchWord :
    regPc (step (State.reset.withFetchWord 32 0xFFF10093)) 1#5 =
      some (0xFFFFFFFF#32, 0x00001004#32) := by decide

/-! ## The hypotheses of the statements can be met

One theorem for each statement with hypotheses; where it has several clauses, an instance of each, at the
ends of the ranges. -/

/-- A part of a next state. -/
def view {α : Type} (f : State → α) (r : Result) : Option α :=
  match r with
  | .next t => some (f t)
  | .fault _ => none
  | .refused _ => none

theorem next_of_view {α : Type} {f : State → α} {r : Result} {v : α} (h : view f r = some v) :
    ∃ t, r = .next t ∧ f t = v := by
  cases r with
  | next t => exact ⟨t, rfl, by simpa [view] using h⟩
  | fault _ => simp [view] at h
  | refused _ => simp [view] at h

/-- `add x3, x1, x2` (V124). -/
def addHart : State := hart 0x1000#32 (.word 0x002081B3#32) [(1#5, 0x7FFFFFFF#32), (2#5, 1#32)] []

/-- `sh x1, 2(x2)` (V75), where one of the two bytes was stored to before. -/
def storeHart : State :=
  { hart 0x1000#32 (.word 0x00111123#32) [(1#5, 0x12345678#32), (2#5, 0x2000#32)] [] with dirty := [0x2003] }

/-- `addi x1, x0, 1` in the last executable word of the two regions. -/
def boxedWord : State := { hart 0x1FFC#32 (.word 0x00100093#32) [] [] with memMap := twoRegions }

/-- `c.nop` in the last executable parcel of the two regions (V225). -/
def boxedParcel : State := { hart 0x1FFE#32 (.parcel 0x0001#16) [] [] with memMap := twoRegions }

theorem witness_DecodeInvertsEncode :
    (Instr.cAddi 1#5 0x3F#6).wellFormed = true ∧ (Instr.lui 31#5 0xFFFFF#20).wellFormed = true := by decide

theorem witness_EncodeInvertsDecode :
    decode (.word 0x123452B7#32) = .ok (.lui 5#5 0x12345#20) ∧
    decode (.parcel 0x1FE8#16) = .ok (.cAddi4spn 2#3 255#8) := by decide

theorem witness_DecodeFollowsRowLists :
    rows32.any (fun r => 0x00100093#32 &&& r.2.2 == r.2.1) = true ∧
    rows16.any (fun r => 0x0085#16 &&& r.2.2.1 == r.2.1 && r.2.2.2 0x0085#16) = true := by decide

theorem witness_ZeroRegisterIsHardwired_and_ResetHoldsTheParameters :
    (1#5 : RegIdx) ≠ 0#5 ∧ (31#5 : RegIdx) ≠ 0#5 := by decide

theorem witness_EveryMemoryImageHasOneCanonicalList :
    Memory.wf [(0x2000, 0x80#8), (0xFFFFFFFF, 0x01#8)] := by decide

theorem witness_ResetIsGood :
    BootParams.Legal BootParams.default ∧
    BootParams.Legal { BootParams.default with resetPc := 0xFFFFFFFE#32, memMap := twoRegions } :=
  ⟨⟨by decide, by decide, by decide⟩, ⟨by decide, by decide, by decide⟩⟩

theorem addHart_next : ∃ t, step addHart = .next t ∧ (t.halt, t.getX 3#5) = (.running, 0x80000000#32) :=
  next_of_view (f := fun t => (t.halt, t.getX 3#5)) (by decide)

theorem witness_StepKeepsGoodStates_and_NoStepChangesModeOrMap :
    Inv addHart ∧ ∃ t, step addHart = .next t :=
  ⟨⟨by decide, by decide, by decide, by decide, fun c e v h => by
      rw [show addHart.halt = .running by decide] at h; cases h⟩,
    addHart_next.imp fun _ h => h.1⟩

theorem witness_MemReadChecksThenReads :
    (0x2FFF#32).toNat % Width.half.bytes ≠ 0 ∧ (0xFFFFFFFD#32).toNat % Width.word.bytes ≠ 0 ∧
    ((0x3000#32).toNat % Width.word.bytes = 0 ∧ ¬ permitted boxedWord .read 0x3000#32 Width.word.bytes) ∧
    ((0x0FFF#32).toNat % Width.byte.bytes = 0 ∧ ¬ permitted boxedWord .read 0x0FFF#32 Width.byte.bytes) ∧
    ((0x2FFC#32).toNat % Width.word.bytes = 0 ∧ permitted boxedWord .read 0x2FFC#32 Width.word.bytes) ∧
    (0xFFFFFFFF#32).toNat % Width.byte.bytes = 0 ∧
        permitted addHart .read 0xFFFFFFFF#32 Width.byte.bytes := by
  unfold permitted mapGrants; decide

theorem witness_MemWriteChecksThenWrites :
    (0x2FFF#32).toNat % Width.half.bytes ≠ 0 ∧ (0xFFFFFFFE#32).toNat % Width.word.bytes ≠ 0 ∧
    ((0x1FFC#32).toNat % Width.word.bytes = 0 ∧ ¬ permitted boxedWord .write 0x1FFC#32 Width.word.bytes) ∧
    ((0x2000#32).toNat % Width.word.bytes = 0 ∧ permitted boxedWord .write 0x2000#32 Width.word.bytes) ∧
    (0xFFFFFFFF#32).toNat % Width.byte.bytes = 0 ∧
        permitted addHart .write 0xFFFFFFFF#32 Width.byte.bytes := by
  unfold permitted mapGrants; decide

/-- The bytes of R46's own example are read back in test_narrow_reads. -/
theorem witness_NarrowReadsSeeTheStoredWord :
    (∃ t, boxedWord.memWrite 0x2FFC#32 .word 0x11223344#32 = .ok t) ∧
      permitted boxedWord .read 0x2FFC#32 4 :=
  ⟨⟨_, rfl⟩, by unfold permitted mapGrants; decide⟩

/-- R46: its numbers. -/
theorem test_narrow_reads :
    (boxedWord.memWrite 0x2000#32 .word 0x11223344#32).toOption.map (fun t =>
      ((t.memRead 0x2000#32 .byte).toOption, (t.memRead 0x2003#32 .byte).toOption,
        (t.memRead 0x2000#32 .half).toOption, (t.memRead 0x2002#32 .half).toOption)) =
      some (some 0x44#8, some 0x11#8, some 0x3344#16, some 0x1122#16) := by decide

theorem storeHart_next :
    ∃ t, step storeHart = .next t ∧ (t.dirty, t.mem.byteAt 0x2002#32) = ([0x2002, 0x2003], 0x78#8) :=
  next_of_view (f := fun t => (t.dirty, t.mem.byteAt 0x2002#32)) (by decide)

theorem witness_ChangedBytesAreDirty :
    0x2003 ∈ storeHart.dirty ∧
    ∃ t, step storeHart = .next t ∧ t.mem.byteAt 0x2002#32 ≠ storeHart.mem.byteAt 0x2002#32 := by
  obtain ⟨t, h, e⟩ := storeHart_next
  refine ⟨by decide, t, h, ?_⟩
  rw [(Prod.mk.inj e).2]; decide

theorem witness_CleanBytesKeepTheirValue :
    ∃ t, Reaches storeHart t ∧ (0x2001#32).toNat ∉ t.dirty ∧ (0x2004#32).toNat ∉ t.dirty := by
  obtain ⟨t, h, e⟩ := storeHart_next
  refine ⟨t, .step .refl h, ?_⟩
  rw [(Prod.mk.inj e).1]; decide

theorem witness_FetchReadsParcels :
    (boxedWord.halt = .running ∧ boxedParcel.halt = .running) ∧
    ¬ permitted { boxedWord with pc := 0x2000#32 } .execute 0x2000#32 2 ∧
    (permitted boxedParcel .execute boxedParcel.pc 2 ∧ ¬ anyDirty boxedParcel boxedParcel.pc 2 ∧
      leValue boxedParcel.mem boxedParcel.pc 2 % 4 ≠ 3) ∧
    (permitted boxedWord .execute 0x1FFE#32 2 ∧ ¬ permitted boxedWord .execute (0x1FFE#32 + 2#32) 2) ∧
    permitted boxedWord .execute boxedWord.pc 2 ∧ ¬ anyDirty boxedWord boxedWord.pc 2 ∧
    leValue boxedWord.mem boxedWord.pc 2 % 4 = 3 ∧ permitted boxedWord .execute (boxedWord.pc + 2#32) 2 ∧
    ¬ anyDirty boxedWord (boxedWord.pc + 2#32) 2 := by
  unfold permitted mapGrants anyDirty; decide

/-- The state of V224 meets the third clause of FetchReadsParcels whole. -/
theorem witness_FetchReadsParcels_second_parcel :
    let s := { hart 0x1FFE#32 (.word 0x00100093#32) [] [] with memMap := twoRegions }
    s.halt = .running ∧ permitted s .execute s.pc 2 ∧ ¬ anyDirty s s.pc 2 ∧
      leValue s.mem s.pc 2 % 4 = 3 ∧ ¬ permitted s .execute (s.pc + 2#32) 2 := by
  unfold permitted mapGrants anyDirty; decide

theorem witness_SelfModifyingFetchIsRefused :
    let s := { addHart with dirty := [0x1003] }
    s.halt = .running ∧ permitted s .execute s.pc 2 ∧ leValue s.mem s.pc 2 % 4 = 3 ∧
      permitted s .execute (s.pc + 2#32) 2 ∧ anyDirty s (s.pc + 2#32) 2 ∧
      refusedBy (step s) = some (.selfModifyingCode 0x1000#32) := by
  unfold permitted mapGrants anyDirty; decide

theorem witness_StepRunsTheDecodedInstruction :
    (addHart.halt = .running ∧ (Instr.add 3#5 1#5 2#5).wellFormed = true ∧
      decodeBytes [addHart.mem.byteAt addHart.pc, addHart.mem.byteAt (addHart.pc + 1#32),
        addHart.mem.byteAt (addHart.pc + 2#32), addHart.mem.byteAt (addHart.pc + 3#32)] =
        .ok (.add 3#5 1#5 2#5, []) ∧
      permitted addHart .execute addHart.pc (4 - 0) ∧ ¬ anyDirty addHart addHart.pc (4 - 0)) ∧
    boxedParcel.halt = .running ∧ Instr.cNop.wellFormed = true ∧
      decodeBytes [boxedParcel.mem.byteAt boxedParcel.pc, boxedParcel.mem.byteAt (boxedParcel.pc + 1#32),
        boxedParcel.mem.byteAt (boxedParcel.pc + 2#32), boxedParcel.mem.byteAt (boxedParcel.pc + 3#32)] =
        .ok (.cNop, [0#8, 0#8]) ∧
      permitted boxedParcel .execute boxedParcel.pc (4 - 2) ∧
      ¬ anyDirty boxedParcel boxedParcel.pc (4 - 2) := by
  unfold permitted mapGrants anyDirty; decide

theorem witness_PlacedInstructionRunsNext :
    ((Instr.add 3#5 1#5 2#5).wellFormed = true ∧ encode (.add 3#5 1#5 2#5) = .word 0x002081B3#32) ∧
    Instr.cNop.wellFormed = true ∧ encode .cNop = .parcel 0x0001#16 := by decide

/-- `addi x1, x0, 1` and `ebreak` in MEM_INIT, one step after reset. -/
theorem witness_ExecutedCodeIsInitialCode :
    ∃ (p : BootParams) (t : State), Reaches (State.boot p) t ∧ t.fetch = .got (.word 0x00100073#32) := by
  let p : BootParams := { BootParams.default with
    memInit := fill (fill [] 0x1000#32 (bytesOfWord 0x00100093#32)) 0x1004#32 (bytesOfWord 0x00100073#32) }
  obtain ⟨t, h, e⟩ := next_of_view (f := State.fetch) (r := step (State.boot p))
    (v := .got (.word 0x00100073#32)) (by decide)
  exact ⟨p, t, .step .refl h, e⟩

theorem witness_TrapChangesOnlyHalt :
    let s := hart 0x124#32 (.word 0x00100073#32) [] []
    s.halt = .running ∧ ∃ t, step s = .next t ∧ t.halt ≠ .running := by
  refine ⟨by decide, ?_⟩
  obtain ⟨t, h, e⟩ := next_of_view (f := State.halt)
    (r := step (hart 0x124#32 (.word 0x00100073#32) [] [])) (v := .halted .breakpoint 0x124#32 0x124#32) (by decide)
  exact ⟨t, h, by rw [e]; decide⟩

/-- One state for each exception, in the order of the codes; V223, V212, V162, V63, V71, V81, V84, V161. -/
theorem witness_EachExceptionHasItsSource :
    [{ hart 0x2000#32 (.word 0x00100093#32) [] [] with memMap := twoRegions },
      hart 0x1000#32 (.word 0xFFFFFFFF#32) [] [],
      hart 0x124#32 (.word 0x00100073#32) [] [],
      hart 0x1000#32 (.word 0x00212083#32) [(2#5, 0x2000#32)] [],
      { hart 0x1000#32 (.word 0x00012083#32) [(2#5, 0x3000#32)] [] with memMap := twoRegions },
      hart 0x1000#32 (.word 0x00112123#32) [(2#5, 0x2000#32)] [],
      { hart 0x1000#32 (.word 0x00112023#32) [(2#5, 0x1800#32)] [] with memMap := twoRegions },
      hart 0x120#32 (.word 0x00000073#32) [] []].map (fun s => haltOf (step s)) =
    [some (.halted .instructionAccessFault 0x2000#32 0x2000#32),
      some (.halted .illegalInstruction 0x1000#32 0xFFFFFFFF#32),
      some (.halted .breakpoint 0x124#32 0x124#32),
      some (.halted .loadAddressMisaligned 0x1000#32 0x2002#32),
      some (.halted .loadAccessFault 0x1000#32 0x3000#32),
      some (.halted .storeAddressMisaligned 0x1000#32 0x2002#32),
      some (.halted .storeAccessFault 0x1000#32 0x1800#32),
      some (.halted .environmentCall 0x120#32 0#32)] := by decide

theorem witness_InstructionAddressIsNeverMisaligned :
    (∃ t, step addHart = .next t) ∧
    (BootParams.Legal BootParams.default ∧ Reaches (State.boot BootParams.default) State.reset) ∧
    permitted addHart .execute addHart.pc 4 ∧ ¬ anyDirty addHart addHart.pc 4 :=
  ⟨addHart_next.imp fun _ h => h.1, ⟨witness_ResetIsGood.1, .refl⟩, by unfold permitted mapGrants anyDirty; decide⟩

theorem witness_UnadmittedBitsRaiseIllegal :
    (let s := hart 0x1000#32 (.parcel 0x0004#16) [] []
     s.halt = .running ∧ s.fetch = .got (.parcel 0x0004#16) ∧
       decode (.parcel 0x0004#16) = .error .constraintFails) ∧
    (let s := hart 0x1000#32 (.parcel 0x0000#16) [] []
     s.halt = .running ∧ s.fetch = .got (.parcel 0x0000#16) ∧ decode (.parcel 0x0000#16) = .ok .cIllegal) ∧
    let s := hart 0x1000#32 (.parcel 0x9FFC#16) [] []
    s.halt = .running ∧ s.fetch = .got (.parcel 0x9FFC#16) ∧
      decode (.parcel 0x9FFC#16) = .ok (.cReserved 0x7FF#11) := by decide

theorem witness_NormalEndIsEcall :
    current (hart 0x120#32 (.word 0x00000073#32) [] []) .ecall ∧
    ∃ t, step (hart 0x120#32 (.word 0x00000073#32) [] []) = .next t ∧
        t.halt = .halted .environmentCall 0x120#32 0#32 :=
  ⟨⟨.word 0x00000073#32, by decide, by decide⟩, next_of_view (f := State.halt) (by decide)⟩

theorem witness_InstructionsWriteOnlyTheirDestination :
    (∃ t, exec (.add 3#5 1#5 2#5) addHart = .next t) ∧
    (destOf (.add 3#5 1#5 2#5) ≠ some 4#5 ∧ storedBytes (.add 3#5 1#5 2#5) = 0) ∧
    (∃ t, exec (.sh 2#5 1#5 2#12) storeHart = .next t) ∧ storedBytes (.sh 2#5 1#5 2#12) ≠ 0 ∧
    effectiveAddress (.sh 2#5 1#5 2#12) storeHart = some 0x2002#32 ∧
    ¬ (0x2001#32 - 0x2002#32).toNat < storedBytes (.sh 2#5 1#5 2#12) ∧
    ¬ (0x2004#32 - 0x2002#32).toNat < storedBytes (.sh 2#5 1#5 2#12) :=
  ⟨⟨_, rfl⟩, by decide, ⟨_, rfl⟩, by decide⟩

theorem witness_InstructionsReadOnlyTheirSources :
    let x' := (addHart.setX 5#5 7#32).x
    (∀ r ∈ sourcesOf (.add 3#5 1#5 2#5), State.getX { addHart with x := x' } r = addHart.getX r) ∧
    (∃ t, exec (.add 3#5 1#5 2#5) addHart = .next t ∧ t.halt = .running) ∧
    (∃ t, exec (.add 3#5 1#5 2#5) { addHart with x := x' } = .next t) ∧
    destOf (.add 3#5 1#5 2#5) = some 3#5 :=
  ⟨by decide, ⟨_, rfl, rfl⟩, ⟨_, rfl⟩, rfl⟩

theorem witness_PcAdvancesByTheLength :
    addHart.halt = .running ∧
    (∃ t, exec (.add 3#5 1#5 2#5) addHart = .next t ∧ t.halt = .running) ∧
    (∃ t, exec .cNop addHart = .next t ∧ t.halt = .running) ∧
    (∃ t, exec (.beq 0#5 0#5 0x800#12) addHart = .next t ∧ t.halt = .running) ∧
    (∃ t, exec (.bne 0#5 0#5 0x7FF#12) addHart = .next t ∧ t.halt = .running) ∧
    ∃ t, exec .ebreak addHart = .next t ∧ t.halt ≠ .running :=
  ⟨by decide, ⟨_, rfl, rfl⟩, ⟨_, rfl, rfl⟩, next_of_view (f := State.halt) (by decide),
    next_of_view (f := State.halt) (by decide), ⟨_, rfl, by simp⟩⟩

/-- Words of V2, V7, V14, V22, V159. -/
theorem witness_words_of_U_J_I_and_fence :
    0xFFFFF2B7#32 &&& 0x0000007F#32 = 0x00000037#32 ∧ 0xFFFFF517#32 &&& 0x0000007F#32 = 0x00000017#32 ∧
    0x800002EF#32 &&& 0x0000007F#32 = 0x0000006F#32 ∧ 0x800280E7#32 &&& 0x0000707F#32 = 0x00000067#32 ∧
    0xFFFF8F8F#32 &&& 0x0000707F#32 = 0x0000000F#32 := by decide

/-- For every branch a word (all other bits 1), operands that take it and operands that do not; the operands
are those of 95_test_vectors.md 2.3. -/
theorem witness_BranchesCompareAndJump :
    ∀ r ∈ branchRows,
      (0x1FFFF#17 ++ r.1 ++ 0b111111100011#12) &&& 0x0000707F#32 = 0#17 ++ r.1 ++ 0b000001100011#12 ∧
      (∃ p ∈ [(5#32, 5#32), (1#32, 0xFFFFFFFF#32), (0x80000000#32, 0x7FFFFFFF#32)], r.2.2 p.1 p.2 = true) ∧
      ∃ p ∈ [(5#32, 5#32), (1#32, 0xFFFFFFFF#32), (0x80000000#32, 0x7FFFFFFF#32)], r.2.2 p.1 p.2 = false := by
  decide

/-- For every load a word, an address that is aligned and permitted, and one that is aligned and not; for
LH, LW and LHU a misaligned one. -/
theorem witness_LoadsReadAndExtend :
    ∀ r ∈ loadRows,
      (0x1FFFF#17 ++ r.1 ++ 0b111110000011#12) &&& 0x0000707F#32 = 0#17 ++ r.1 ++ 0b000000000011#12 ∧
      ((0x2FFC#32).toNat % r.2.2.1 = 0 ∧ permitted boxedWord .read 0x2FFC#32 r.2.2.1) ∧
      ((0x3000#32).toNat % r.2.2.1 = 0 ∧ ¬ permitted boxedWord .read 0x3000#32 r.2.2.1) ∧
      (r.2.2.1 ≠ 1 → (0x2FFF#32).toNat % r.2.2.1 ≠ 0) := by
  unfold permitted mapGrants; decide

theorem witness_StoresWriteTheLowBytes :
    ∀ r ∈ storeRows,
      (0x1FFFF#17 ++ r.1 ++ 0b111110100011#12) &&& 0x0000707F#32 = 0#17 ++ r.1 ++ 0b000000100011#12 ∧
      ((0x2000#32).toNat % r.2.2 = 0 ∧ permitted boxedWord .write 0x2000#32 r.2.2) ∧
      ((0x1FFC#32).toNat % r.2.2 = 0 ∧ ¬ permitted boxedWord .write 0x1FFC#32 r.2.2) ∧
      (r.2.2 ≠ 1 → (0x2001#32).toNat % r.2.2 ≠ 0) := by
  unfold permitted mapGrants; decide

theorem witness_ImmediateArithmeticResults :
    ∀ r ∈ immRows,
      (0x1FFFF#17 ++ r.1 ++ 0b111110010011#12) &&& 0x0000707F#32 = 0#17 ++ r.1 ++ 0b000000010011#12 := by
  decide

theorem witness_ImmediateShiftResults :
    ∀ r ∈ shiftImmRows,
      (r.1 ++ 0x3FF#10 ++ r.2.1 ++ 0b111110010011#12) &&& 0xFE00707F#32 =
        r.1 ++ 0#10 ++ r.2.1 ++ 0b000000010011#12 := by decide

theorem witness_RegisterOperationResults :
    ∀ r ∈ opRows,
      (r.1 ++ 0x3FF#10 ++ r.2.1 ++ 0b111110110011#12) &&& 0xFE00707F#32 =
        r.1 ++ 0#10 ++ r.2.1 ++ 0b000000110011#12 := by decide

/-- Parcels of V170, V174, V178, V185, V203, V191, V181. -/
theorem witness_parcels :
    (0x1FE8#16 &&& 0xE003#16 = 0x0000#16 ∧ (0x1FE8#16).extractLsb' 5 8 ≠ 0#8) ∧
    0x5FFC#16 &&& 0xE003#16 = 0x4000#16 ∧ 0xDFE4#16 &&& 0xE003#16 = 0xC000#16 ∧
    (0x1501#16 &&& 0xE003#16 = 0x0001#16 ∧ (0x1501#16).extractLsb' 7 5 ≠ 0#5 ∧
      (0x1501#16).extractLsb' 12 1 ++ (0x1501#16).extractLsb' 2 5 ≠ 0#6) ∧
    (0x4081#16 &&& 0xE003#16 = 0x4001#16 ∧ (0x4081#16).extractLsb' 7 5 ≠ 0#5) ∧
    0x2FFD#16 &&& 0xE003#16 = 0x2001#16 ∧ 0x9FFC#16 &&& 0xE003#16 = 0x8000#16 := by decide

/-- C.LW and C.SW, at their largest offset from x8 = 0x2F80: the last word, the first word behind the
region, and a misaligned address. -/
theorem witness_CLwReadsAWord_and_CSwWritesAWord :
    let s := boxedWord.setX 8#5 0x2F80#32
    let addr := s.getX (BitVec.ofNat 5 (8 + (0#3).toNat)) + BitVec.ofNat 32 (4 * (31#5).toNat)
    (addr = 0x2FFC#32 ∧
        addr = s.baseDisp (BitVec.ofNat 5 (8 + (0#3).toNat)) (BitVec.ofNat 32 (4 * (31#5).toNat)) ∧
      addr.toNat % 4 = 0 ∧ permitted s .read addr 4 ∧ permitted s .write addr 4) ∧
    ((0x3000#32).toNat % 4 = 0 ∧ ¬ permitted s .read 0x3000#32 4 ∧ ¬ permitted s .write 0x3000#32 4) ∧
    (0x2FFD#32).toNat % 4 ≠ 0 := by
  unfold permitted mapGrants; decide

/-- C.LW aligned (next), and misaligned (a trap). -/
theorem witness_CompressedExecutesAsItsExpansion :
    addHart.halt = .running ∧ expansionOf (.cLw 1#3 0#3 1#5) = some (.lw 9#5 8#5 4#12) ∧
    view State.halt (exec (.lw 9#5 8#5 4#12) addHart) = some .running ∧
    view State.halt (exec (.lw 9#5 8#5 4#12) (addHart.setX 8#5 1#32)) =
      some (.halted .loadAddressMisaligned 0x1000#32 0x00000005#32) := by decide

/-- A legal map of two regions at the first and the last byte of each, and the byte after each; and a state
with the default map whose step halts. -/
theorem witness_MemMapGrantsPermissions :
    mapWf twoRegions ∧
    twoRegions.map (fun r => (r.base.toNat, r.base.toNat + r.size)) =
      [(0x1000, 0x2000), (0x2000, 0x3000)] ∧
    (mapGrants twoRegions .execute 0x1000#32 ∧ mapGrants twoRegions .execute 0x1FFF#32 ∧
      ¬ mapGrants twoRegions .execute 0x2000#32 ∧ ¬ mapGrants twoRegions .write 0x1FFF#32) ∧
    (mapGrants twoRegions .write 0x2000#32 ∧ mapGrants twoRegions .write 0x2FFF#32 ∧
      ¬ mapGrants twoRegions .read 0x3000#32 ∧ ¬ mapGrants twoRegions .read 0x0FFF#32) ∧
    State.reset.memMap = [⟨0x00000000#32, 4294967296, true, true, true⟩] ∧
    haltOf (step State.reset) = some (.halted .illegalInstruction 0x1000#32 0#32) := by
  unfold mapGrants; decide

/-- A state with one byte stored and the others as loaded: it fetches and it steps. -/
theorem witness_StepKeepsLoadedCode :
    let p : BootParams := { BootParams.default with memInit := addHart.mem, x := addHart.x }
    let t : State := { State.boot p with mem := addHart.mem.setByte 0x4000#32 0xFF#8, dirty := [0x4000] }
    LoadedKept p t ∧ (∃ u, step t = .next u) ∧ t.fetch = .got (.word 0x002081B3#32) := by
  refine ⟨⟨rfl, fun a h => ?_⟩, ?_, by decide⟩
  · have hne : a ≠ 0x4000#32 := fun e => h (by subst e; decide)
    change (addHart.mem.setByte 0x4000#32 0xFF#8).byteAt a = addHart.mem.byteAt a
    rw [byteAt_setByte, if_neg hne]
  · obtain ⟨u, h, -⟩ := next_of_view (f := State.pc) (v := 0x1004#32) (r := step
      { State.boot { BootParams.default with memInit := addHart.mem, x := addHart.x } with
        mem := addHart.mem.setByte 0x4000#32 0xFF#8, dirty := [0x4000] }) (by decide)
    exact ⟨u, h⟩

end Sys2Proof.Tests
end

section
/-! The bytes and addresses of a little-endian write, the sum of even addresses, and the one canonical list
of a memory image: the layer over Laws/Memory.lean that the statements about steps and states rest on. -/

namespace Sys2Proof.Proofs
open Sys2Proof.Machine

/-! ## The bytes of an access (20_memory.md R42) -/

/-- The two ways to say that `a` is one of the first `n` bytes at `addr`: by its offset, and by its place. -/
theorem offset_lt_iff {n : Nat} (hn : n ≤ 4294967296) (a addr : Word) :
    (a - addr).toNat < n ↔ ∃ k < n, addr + BitVec.ofNat 32 k = a := by
  constructor
  · intro h
    refine ⟨(a - addr).toNat, h, ?_⟩
    rw [BitVec.ofNat_toNat, BitVec.setWidth_eq, BitVec.add_comm, BitVec.sub_add_cancel]
  · rintro ⟨k, hk, rfl⟩
    have hoff : addr + BitVec.ofNat 32 k - addr = BitVec.ofNat 32 k := by
      rw [BitVec.add_comm, BitVec.add_sub_cancel]
    rw [hoff, BitVec.toNat_ofNat]
    omega

theorem bytes_pos (n : Width) : 0 < n.bytes := by
  cases n <;> decide

theorem bytes_le (n : Width) : n.bytes ≤ 4294967296 := by
  cases n <;> decide

/-- A little-endian write leaves every byte outside its range as it was (20_memory.md R45). -/
theorem byteAt_writeLE_of_outside (m : Memory) (addr : Word) (n : Width) (v : BitVec n.bits) (a : Word)
    (ha : ∀ k < n.bytes, addr + BitVec.ofNat 32 k ≠ a) :
    (m.writeLE addr n v).byteAt a = m.byteAt a := by
  have h0 : a ≠ addr := fun h => ha 0 (bytes_pos n) (by simp [h])
  cases n with
  | byte => simp [Memory.writeLE, byteAt_setByte, h0]
  | half => simp [Memory.writeLE, byteAt_setByte, h0, (ha 1 (by decide)).symm]
  | word =>
    simp [Memory.writeLE, byteAt_setByte, h0, (ha 1 (by decide)).symm, (ha 2 (by decide)).symm,
      (ha 3 (by decide)).symm]

/-- What a little-endian write changes is put into `dirty` (20_memory.md R45). -/
theorem mem_dirtyAdd_of_byteAt_writeLE_ne {m : Memory} {addr a : Word} {n : Width} {v : BitVec n.bits}
    (h : (m.writeLE addr n v).byteAt a ≠ m.byteAt a) (d : List Nat) :
    a.toNat ∈ dirtyAdd d addr n.bytes := by
  by_contra hd
  refine h (byteAt_writeLE_of_outside m addr n v a fun k hk hka => hd ?_)
  exact (mem_dirtyAdd ..).2 (.inl ⟨k, hk, by rw [hka]⟩)

/-- Outside the range of an access `dirty` stays as it was. -/
theorem mem_dirtyAdd_of_outside {addr a : Word} {n : Nat}
    (ha : ∀ k < n, addr + BitVec.ofNat 32 k ≠ a) (d : List Nat) :
    a.toNat ∈ dirtyAdd d addr n ↔ a.toNat ∈ d := by
  rw [mem_dirtyAdd, or_iff_right]
  rintro ⟨k, hk, hka⟩
  exact ha k hk (BitVec.eq_of_toNat_eq hka)

/-! ## Even addresses (10_state.md R27) -/

theorem add_even {a b : Word} (ha : a.toNat % 2 = 0) (hb : b.toNat % 2 = 0) : (a + b).toNat % 2 = 0 := by
  rw [BitVec.toNat_add]; omega

/-- An offset stored without its bit 0 stands for twice what is stored (30_encoding.md R83, R85, R91). -/
theorem toInt_append_zero_signExtend {n : Nat} (hn : n < 32) (imm : BitVec n) :
    ((imm ++ 0#1).signExtend 32).toInt = 2 * imm.toInt := by
  rw [BitVec.toInt_signExtend_of_le (by omega), BitVec.toInt_append_zero]
  omega

theorem append_zero_signExtend_even {n : Nat} (hn : n < 32) (imm : BitVec n) :
    ((imm ++ 0#1).signExtend 32).toNat % 2 = 0 := by
  have htwice := toInt_append_zero_signExtend hn imm
  rw [BitVec.toInt_eq_toNat_cond] at htwice
  split at htwice <;> omega

/-- 41_jumps.md R131: the target of JALR has bit 0 cleared. -/
theorem jalrTarget_even (s : State) (rs1 : RegIdx) (imm : BitVec 12) :
    (s.jalrTarget rs1 imm).toNat % 2 = 0 := by
  have hbit : (s.jalrTarget rs1 imm).getLsbD 0 = false := by simp [State.jalrTarget]
  simpa [BitVec.getLsbD, Nat.testBit_zero] using hbit

/-! ## Sums in the terms of 10_state.md R26 -/

theorem toNat_add_ofNat (a : Word) (n : Nat) :
    (a + BitVec.ofNat 32 n).toNat = (a.toNat + n) % 4294967296 := by
  simp [BitVec.toNat_add, BitVec.toNat_ofNat]

/-- A displacement added modulo 2^32 is added as the integer it stands for. -/
theorem toNat_add_eq_toInt (a b : Word) : ((a + b).toNat : Int) = (a.toNat + b.toInt) % 4294967296 := by
  have hb := BitVec.toInt_eq_toNat_cond b
  rw [BitVec.toNat_add]
  split at hb <;> omega

/-! ## The canonical list of an image (log entry 3) -/

/-- The image `g` of the addresses below `n`, written byte by byte into an empty memory. -/
def imageBelow (g : Word → Byte) : Nat → Memory
  | 0 => []
  | n + 1 => (imageBelow g n).setByte (BitVec.ofNat 32 n) (g (BitVec.ofNat 32 n))

theorem imageBelow_wf (g : Word → Byte) (n : Nat) : (imageBelow g n).wf := by
  induction n with
  | zero => exact ⟨.nil, by simp [imageBelow]⟩
  | succ n ih => exact setByte_wf _ _ _ ih

theorem byteAt_imageBelow (g : Word → Byte) (n : Nat) (a : Word) (ha : a.toNat < n) :
    (imageBelow g n).byteAt a = g a := by
  induction n with
  | zero => omega
  | succ n ih =>
    rw [imageBelow, byteAt_setByte]
    split
    · next h => rw [h]
    · next h =>
      have hne : a.toNat ≠ n := fun e => h (by rw [← e, BitVec.ofNat_toNat, BitVec.setWidth_eq])
      exact ih (by omega)

/-- In a list of strictly rising keys a listed cell is what its key reads as. -/
theorem lookup_of_mem {m : Memory} (hm : m.Pairwise (fun c d => c.1 < d.1)) {c : Host.Cell} (hc : c ∈ m) :
    Memory.lookup m c.1 = c.2 := by
  induction m with
  | nil => simp at hc
  | cons d m ih =>
    obtain ⟨hd, hm⟩ := List.pairwise_cons.1 hm
    rcases List.mem_cons.1 hc with rfl | hc
    · simp [Memory.lookup]
    · simpa [Memory.lookup, (hd c hc).ne] using ih hm hc

/-- What does not read as an unlisted byte is listed. -/
theorem mem_of_lookup_ne {m : Memory} {k : Nat} (h : Memory.lookup m k ≠ unlistedByte) :
    (k, Memory.lookup m k) ∈ m := by
  induction m with
  | nil => simp [Memory.lookup] at h
  | cons d m ih =>
    by_cases hk : d.1 = k
    · simp [Memory.lookup, hk, Prod.ext_iff]
    · simp only [Memory.lookup, hk, if_false] at h ⊢
      exact List.mem_cons_of_mem _ (ih h)

/-- A cell of a canonical list stands in every canonical list that reads alike. -/
theorem mem_of_byteAt_eq {m m' : Memory} (hm : m.wf) (h : ∀ a : Word, m.byteAt a = m'.byteAt a)
    {c : Host.Cell} (hc : c ∈ m) : c ∈ m' := by
  obtain ⟨hrise, hcells⟩ := hm
  obtain ⟨hlt, hne⟩ := hcells c hc
  have hread : Memory.lookup m' c.1 = c.2 := by
    have h' := h (BitVec.ofNat 32 c.1)
    rw [Memory.byteAt, Memory.byteAt, BitVec.toNat_ofNat, Nat.mod_eq_of_lt hlt] at h'
    rw [← h', lookup_of_mem hrise hc]
  have hmem := mem_of_lookup_ne (hread ▸ hne)
  rwa [hread] at hmem

theorem wf_eq_of_byteAt_eq {m m' : Memory} (hm : m.wf) (hm' : m'.wf)
    (h : ∀ a : Word, m.byteAt a = m'.byteAt a) : m = m' := by
  have : Std.Irrefl (fun c d : Host.Cell => c.1 < d.1) := ⟨fun c => lt_irrefl c.1⟩
  have : Std.Antisymm (fun c d : Host.Cell => c.1 < d.1) := ⟨fun _ _ h h' => absurd h h'.asymm⟩
  exact hm.1.eq_of_mem_iff hm'.1 fun c =>
    ⟨mem_of_byteAt_eq hm h, mem_of_byteAt_eq hm' fun a => (h a).symm⟩

/-- Settles O6: a list exists since the image can be written byte by byte, and it is the only one since a
canonical list is a sorted list of exactly the cells that do not read as an unlisted byte. -/
theorem everyMemoryImageHasOneCanonicalList : Obligations.EveryMemoryImageHasOneCanonicalList :=
  ⟨fun g => ⟨imageBelow g 4294967296, imageBelow_wf g _, fun a => byteAt_imageBelow g _ a a.isLt⟩,
    fun _ _ => wf_eq_of_byteAt_eq⟩

end Sys2Proof.Proofs
end

section
/-! What an instruction can do, said once for all 49 rows with the operands it names (10_state.md R23, R26),
and the statements that follow from it. -/

namespace Sys2Proof.Proofs
open Sys2Proof.Machine

/-- The addresses at which an instruction that raises nothing can leave `pc` (10_state.md R26, R28). -/
def NextPc (i : Instr) (s : State) (p : Word) : Prop :=
  match i with
  | .jal _ imm => p = s.pc + offsetJ imm
  | .jalr _ rs1 imm => p = s.jalrTarget rs1 imm
  | .cJal imm => p = s.pc + offsetCJ imm
  | .beq _ _ imm | .bne _ _ imm | .blt _ _ imm | .bge _ _ imm | .bltu _ _ imm | .bgeu _ _ imm =>
    p = s.pc + 4#32 ∨ p = s.pc + offsetB imm
  | _ => p = s.pc + BitVec.ofNat 32 (ilenOf i)

/-- The four ways an instruction can end: it takes an exception, writes its destination, moves `pc` only, or
stores its bytes at its effective address. -/
inductive Effect (i : Instr) (s : State) : State → Prop
  | trap (e : Trap) (hcause : e.cause ≠ .instructionAddressMisaligned) : Effect i s (s.raise e)
  | reg {rd : RegIdx} {p : Word} (v : Word) (hdest : destOf i = some rd) (hstore : storedBytes i = 0)
      (hpc : NextPc i s p) : Effect i s ((s.setX rd v).setPc p)
  | jump {p : Word} (hstore : storedBytes i = 0) (hpc : NextPc i s p) : Effect i s (s.setPc p)
  | store {addr p : Word} {n : Width} (v : BitVec n.bits) (haddr : effectiveAddress i s = some addr)
      (hbytes : storedBytes i = n.bytes) (hpc : NextPc i s p) :
      Effect i s (State.setPc { s with
        mem := s.mem.writeLE addr n v, dirty := dirtyAdd s.dirty addr n.bytes } p)

/-! ## The effect of each shape of instruction rule -/

section Shapes
variable {i : Instr} {s t : State} {rd : RegIdx} {ilen : Word}

theorem Effect.of_writeReg {v : Word} (hdest : destOf i = some rd) (hstore : storedBytes i = 0)
    (hpc : NextPc i s (s.pc + ilen)) (h : s.writeReg rd v ilen = .next t) : Effect i s t := by
  cases h
  have hreg := Effect.reg v hdest hstore hpc
  rwa [State.advance, setX_pc]

theorem Effect.of_linkAndJump {p : Word} (hdest : destOf i = some rd) (hstore : storedBytes i = 0)
    (hpc : NextPc i s p) (h : s.linkAndJump rd p ilen = .next t) : Effect i s t := by
  cases h
  exact .reg _ hdest hstore hpc

theorem Effect.of_branch {c : Bool} {offset : Word} (hstore : storedBytes i = 0)
    (hstay : NextPc i s (s.pc + 4#32)) (htake : NextPc i s (s.pc + offset))
    (h : s.branch c offset = .next t) : Effect i s t := by
  cases h
  cases c with
  | false => exact .jump hstore hstay
  | true => exact .jump hstore htake

theorem Effect.of_load {addr : Word} {n : Width} {ext : BitVec n.bits → Word}
    (hdest : destOf i = some rd) (hstore : storedBytes i = 0) (hpc : NextPc i s (s.pc + ilen))
    (h : s.load rd addr n ext ilen = .next t) : Effect i s t := by
  rcases load_cases s rd addr n ext ilen with ⟨-, e⟩ | ⟨-, -, e⟩ | ⟨-, -, e⟩ <;> rw [e] at h
  · cases h; exact .trap _ (by simp)
  · cases h; exact .trap _ (by simp)
  · exact .of_writeReg hdest hstore hpc h

theorem Effect.of_store {addr : Word} {n : Width} {v : BitVec n.bits}
    (haddr : effectiveAddress i s = some addr) (hbytes : storedBytes i = n.bytes)
    (hpc : NextPc i s (s.pc + ilen)) (h : s.store addr n v ilen = .next t) : Effect i s t := by
  rcases store_cases s addr n v ilen with ⟨-, e⟩ | ⟨-, -, e⟩ | ⟨-, -, e⟩ <;> rw [e] at h <;> cases h
  · exact .trap _ (by simp)
  · exact .trap _ (by simp)
  · exact .store v haddr hbytes hpc

end Shapes

/-- Every row's meaning is one of the shapes, with the operands that the row names. -/
theorem Effect.of_exec {i : Instr} {s t : State} (h : exec i s = .next t) : Effect i s t := by
  cases i with
  | lui | auipc | addi | slti | sltiu | xori | ori | andi | slli | srli | srai | add | sub | sll | slt
  | sltu | xor | srl | sra | or | and | cAddi4spn | cAddi | cLi => exact .of_writeReg rfl rfl rfl h
  | jal | jalr | cJal => exact .of_linkAndJump rfl rfl rfl h
  | beq | bne | blt | bge | bltu | bgeu => exact .of_branch rfl (.inl rfl) (.inr rfl) h
  | lb | lh | lw | lbu | lhu | cLw => exact .of_load rfl rfl rfl h
  | sb | sh | sw | cSw => exact .of_store rfl rfl rfl h
  | fence | cNop => cases h; exact .jump rfl rfl
  | ecall | ebreak | cIllegal | cReserved => cases h; exact .trap _ (by simp)

/-! ## The next pc -/

theorem ofNat_ilenOf_even (i : Instr) : (BitVec.ofNat 32 (ilenOf i)).toNat % 2 = 0 := by
  unfold ilenOf; split <;> rfl

/-- Every offset and every length is even, and JALR clears bit 0 (10_state.md R27). -/
theorem NextPc.even {i : Instr} {s : State} {p : Word} (hs : s.pc.toNat % 2 = 0) (hp : NextPc i s p) :
    p.toNat % 2 = 0 := by
  cases i with
  | jal | cJal => cases hp; exact add_even hs (append_zero_signExtend_even (by decide) _)
  | jalr => cases hp; exact jalrTarget_even ..
  | beq | bne | blt | bge | bltu | bgeu =>
    rcases hp with rfl | rfl
    · exact add_even hs rfl
    · exact add_even hs (append_zero_signExtend_even (by decide) _)
  | _ => cases hp; exact add_even hs (ofNat_ilenOf_even _)

section Ends
variable {i : Instr} {s t : State}

/-- An instruction that leaves the hart running has raised nothing, so its `pc` is one of `NextPc`. -/
theorem Effect.nextPc (h : Effect i s t) (ht : t.halt = .running) : NextPc i s t.pc := by
  cases h with
  | trap => simp at ht
  | reg _ _ _ hpc | jump _ hpc | store _ _ _ hpc => exact hpc

/-- An instruction that halts a running hart has raised, and an exception changes `halt` only
(60_exceptions.md R256). -/
theorem Effect.of_halts (h : Effect i s t) (hs : s.halt = .running) (ht : t.halt ≠ .running) :
    t.pc = s.pc ∧ sameRegs s t := by
  cases h with
  | trap => exact ⟨rfl, fun _ => rfl⟩
  | reg | jump | store => exact absurd (by simpa using hs) ht

theorem Effect.mapMode (h : Effect i s t) : t.memMap = s.memMap ∧ t.mode = s.mode := by
  cases h <;> simp

theorem Effect.getX_of_not_dest (h : Effect i s t) {r : RegIdx} (hr : destOf i ≠ some r) :
    t.getX r = s.getX r := by
  cases h with
  | trap | jump | store => rfl
  | reg v hdest =>
    have hne : r ≠ _ := fun e => hr (e ▸ hdest)
    rw [setPc_getX, getX_setX, if_neg hne]
    split
    · next h0 => rw [h0, getX_zero]
    · rfl

theorem Effect.sameMemory (h : Effect i s t) (hi : storedBytes i = 0) : sameMemory s t := by
  cases h with
  | trap | jump => exact ⟨fun _ => rfl, rfl⟩
  | reg => exact ⟨fun a => by simp, by simp⟩
  | @store _ _ n _ _ hbytes => exact absurd (hbytes.symm.trans hi) (bytes_pos n).ne'

/-- Where the instruction stores, the bytes outside its range, and `dirty` there, are as before
(20_memory.md R45). -/
theorem Effect.outside_store (h : Effect i s t) {addr a : Word} (haddr : effectiveAddress i s = some addr)
    (ha : ¬ (a - addr).toNat < storedBytes i) :
    t.mem.byteAt a = s.mem.byteAt a ∧ (a.toNat ∈ t.dirty ↔ a.toNat ∈ s.dirty) := by
  cases h with
  | trap | jump => exact ⟨rfl, .rfl⟩
  | reg => simp
  | @store addr' _ n v haddr' hbytes =>
    obtain rfl : addr = addr' := Option.some.inj (haddr.symm.trans haddr')
    have hout : ∀ k < n.bytes, addr + BitVec.ofNat 32 k ≠ a := by
      rw [hbytes, offset_lt_iff (bytes_le n)] at ha
      exact fun k hk hka => ha ⟨k, hk, hka⟩
    exact ⟨byteAt_writeLE_of_outside _ _ _ _ _ hout, mem_dirtyAdd_of_outside hout _⟩

/-- Where a byte changed, a store has put it into `dirty`; and nothing leaves `dirty`. -/
theorem Effect.dirty (h : Effect i s t) (a : Word) :
    (a.toNat ∈ s.dirty → a.toNat ∈ t.dirty) ∧
      (t.mem.byteAt a ≠ s.mem.byteAt a → a.toNat ∈ t.dirty) := by
  cases h with
  | trap | jump => exact ⟨id, fun h => absurd rfl h⟩
  | reg => simp
  | store v =>
    exact ⟨fun h => (mem_dirtyAdd ..).2 (.inr h), fun h => mem_dirtyAdd_of_byteAt_writeLE_ne h _⟩

end Ends

/-! ## Steps -/

/-- A step that answers a next state takes an exception of the fetch or the decoder, or runs an
instruction; the hart was running. -/
theorem step_next {s t : State} (h : step s = .next t) :
    s.halt = .running ∧
      ((∃ e : Trap, e.cause ≠ .instructionAddressMisaligned ∧ t = s.raise e) ∨
        ∃ i, current s i ∧ exec i s = .next t) := by
  cases hs : s.halt with
  | halted c epc v => rw [step_halted s hs] at h; cases h
  | running =>
    refine ⟨rfl, ?_⟩
    rcases step_cases s hs with ⟨-, e⟩ | ⟨-, e⟩ | ⟨iw, r, -, -, e⟩ | ⟨iw, i, hf, hd, e⟩ <;> rw [e] at h
    · cases h; exact .inl ⟨_, by simp, rfl⟩
    · cases h
    · cases h; exact .inl ⟨_, by simp, rfl⟩
    · exact .inr ⟨i, ⟨iw, hf, hd⟩, h⟩

/-! ## Good states -/

theorem haltWf_of_running {s : State} (h : s.halt = .running) : haltWf s := by
  intro c epc v hh; rw [h] at hh; cases hh

theorem inv_raise {s : State} (hs : Inv s) {e : Trap} (he : e.cause ≠ .instructionAddressMisaligned) :
    Inv (s.raise e) where
  mem_wf := hs.mem_wf
  dirty_wf := hs.dirty_wf
  pc_even := hs.pc_even
  map_wf := hs.map_wf
  halt_wf := by rintro c epc v ⟨⟩; exact ⟨rfl, he⟩

/-- Every instruction keeps a running hart's state good. -/
theorem Effect.inv {i : Instr} {s t : State} (h : Effect i s t) (hs : Inv s) (hr : s.halt = .running) :
    Inv t := by
  cases h with
  | trap e he => exact inv_raise hs he
  | reg v _ _ hpc =>
    exact ⟨by simpa using hs.mem_wf, by simpa using hs.dirty_wf, hpc.even hs.pc_even,
      by simpa using hs.map_wf, haltWf_of_running (by simpa using hr)⟩
  | jump _ hpc =>
    exact ⟨hs.mem_wf, hs.dirty_wf, hpc.even hs.pc_even, hs.map_wf, haltWf_of_running hr⟩
  | store v _ _ hpc =>
    exact ⟨writeLE_wf _ _ _ _ hs.mem_wf, dirtyAdd_wf _ _ _ hs.dirty_wf, hpc.even hs.pc_even, hs.map_wf,
      haltWf_of_running hr⟩

/-- Settles O8: a step raises or runs an instruction, and each keeps every part of `Inv`. -/
theorem stepKeepsGoodStates : Obligations.StepKeepsGoodStates := by
  intro s t hs h
  obtain ⟨hr, ⟨e, he, rfl⟩ | ⟨i, -, h⟩⟩ := step_next h
  · exact inv_raise hs he
  · exact (Effect.of_exec h).inv hs hr

/-- Settles O13: an exception changes no byte, and the bytes an instruction changes are those of its store. -/
theorem changedBytesAreDirty : Obligations.ChangedBytesAreDirty := by
  intro s t h a
  obtain ⟨-, ⟨e, -, rfl⟩ | ⟨i, -, h⟩⟩ := step_next h
  · exact ⟨id, fun h => absurd rfl h⟩
  · exact (Effect.of_exec h).dirty a

/-- Settles O25, by the cases of `exec`. -/
theorem everyInstructionAnswersANextState : Obligations.EveryInstructionAnswersANextState := by
  intro i s
  rcases exec_cases i s with ⟨_, e, -⟩ | ⟨_, _, _, e⟩ | ⟨_, e⟩ | ⟨_, _, _, _, -, e⟩ <;> exact ⟨_, e⟩

/-- Settles O26, part by part of the frame, from the four ways an instruction can end. -/
theorem instructionsWriteOnlyTheirDestination : Obligations.InstructionsWriteOnlyTheirDestination := by
  intro i s t h
  have he := Effect.of_exec h
  exact ⟨fun r => he.getX_of_not_dest, he.sameMemory, fun _ addr haddr a => he.outside_store haddr,
    he.mapMode⟩

/-- Settles O28: a running hart's next `pc` is one of `NextPc`, read as a number; a halted one's is as it was. -/
theorem pcAdvancesByTheLength : Obligations.PcAdvancesByTheLength := by
  intro i s t hr h
  have he := Effect.of_exec h
  refine ⟨fun ht => ?_, he.of_halts hr⟩
  have hpc := he.nextPc ht
  cases i with
  | jal | jalr | cJal => trivial
  | beq | bne | blt | bge | bltu | bgeu =>
    refine hpc.imp_right fun e => ?_
    rw [e, toNat_add_eq_toInt, offsetB, toInt_append_zero_signExtend (by decide)]
  | _ => exact (congrArg BitVec.toNat hpc).trans (toNat_add_ofNat ..)

end Sys2Proof.Proofs
end

section
/-! Two runs that differ in the registers an instruction does not read (10_state.md R23, column Reads). -/

namespace Sys2Proof.Proofs
open Sys2Proof.Machine

/-- Two next states agree outside the registers and, where no exception was taken, on the destination. -/
def SameOutcome (dest : Option RegIdx) (t t' : State) : Prop :=
  t'.pc = t.pc ∧ t'.halt = t.halt ∧ t'.mem = t.mem ∧ t'.dirty = t.dirty ∧
    (t.halt = .running → ∀ r, dest = some r → t'.getX r = t.getX r)

/-! ## Each shape of instruction rule, run with other registers

The operands that depend on the registers stand once for each run; where they are equal, so is the outcome. -/

section Shapes
variable {s t t' : State} {x' : Vector Word 31} {rd : RegIdx} {ilen p p' : Word}

theorem sameOutcome_setPc (hp : p' = p) : SameOutcome none (s.setPc p) (State.setPc { s with x := x' } p') := by
  subst hp; exact ⟨rfl, rfl, rfl, rfl, fun _ _ h => by cases h⟩

theorem sameOutcome_raise {dest : Option RegIdx} (e : Trap) :
    SameOutcome dest (s.raise e) (State.raise { s with x := x' } e) :=
  ⟨rfl, rfl, rfl, rfl, fun h => by simp at h⟩

theorem sameOutcome_setX_setPc {v v' : Word} (hv : v' = v) (hp : p' = p) :
    SameOutcome (some rd) ((s.setX rd v).setPc p) ((State.setX { s with x := x' } rd v').setPc p') := by
  subst hv hp
  refine ⟨rfl, by simp, by simp, by simp, fun _ r hr => ?_⟩
  obtain rfl := Option.some.inj hr
  simp [getX_setX]

theorem sameOutcome_writeReg {v v' : Word} (hv : v' = v) (h : s.writeReg rd v ilen = .next t)
    (h' : State.writeReg { s with x := x' } rd v' ilen = .next t') : SameOutcome (some rd) t t' := by
  cases h; cases h'
  exact sameOutcome_setX_setPc hv (by simp)

theorem sameOutcome_linkAndJump (hp : p' = p) (h : s.linkAndJump rd p ilen = .next t)
    (h' : State.linkAndJump { s with x := x' } rd p' ilen = .next t') : SameOutcome (some rd) t t' := by
  cases h; cases h'
  exact sameOutcome_setX_setPc rfl hp

theorem sameOutcome_branch {c c' : Bool} {offset : Word} (hc : c' = c) (h : s.branch c offset = .next t)
    (h' : State.branch { s with x := x' } c' offset = .next t') : SameOutcome none t t' := by
  subst hc; cases h; cases h'
  cases c' <;> exact sameOutcome_setPc rfl

/-- MemRead reads no register. -/
theorem memRead_withX (s : State) (x' : Vector Word 31) (addr : Word) (n : Width) :
    State.memRead { s with x := x' } addr n = s.memRead addr n := rfl

/-- MemWrite reads no register, and keeps those it finds. -/
theorem memWrite_withX (s : State) (x' : Vector Word 31) (addr : Word) (n : Width) (v : BitVec n.bits) :
    State.memWrite { s with x := x' } addr n v =
      (s.memWrite addr n v).map fun u => { u with x := x' } := by
  unfold State.memWrite
  split
  · rfl
  · split <;> rfl

theorem sameOutcome_load {addr addr' : Word} {n : Width} {ext : BitVec n.bits → Word} (ha : addr' = addr)
    (h : s.load rd addr n ext ilen = .next t)
    (h' : State.load { s with x := x' } rd addr' n ext ilen = .next t') : SameOutcome (some rd) t t' := by
  subst ha
  rw [State.load] at h h'
  rw [memRead_withX] at h'
  cases hm : s.memRead addr' n with
  | error e => rw [hm] at h h'; cases h; cases h'; exact sameOutcome_raise e
  | ok v => rw [hm] at h h'; exact sameOutcome_writeReg rfl h h'

theorem sameOutcome_store {addr addr' : Word} {n : Width} {v v' : BitVec n.bits} (ha : addr' = addr)
    (hv : v' = v) (h : s.store addr n v ilen = .next t)
    (h' : State.store { s with x := x' } addr' n v' ilen = .next t') : SameOutcome none t t' := by
  subst ha hv
  rw [State.store] at h h'
  rw [memWrite_withX] at h'
  cases hm : s.memWrite addr' n v' with
  | error e => rw [hm] at h h'; cases h; cases h'; exact sameOutcome_raise e
  | ok u => rw [hm] at h h'; cases h; cases h'; exact sameOutcome_setPc rfl

end Shapes

/-- Settles O27: every row's meaning is one of the shapes, over operands that it takes from the registers it
reads. -/
theorem instructionsReadOnlyTheirSources : Obligations.InstructionsReadOnlyTheirSources := by
  intro i s t t' x' hread h h'
  change SameOutcome (destOf i) t t'
  cases i with
  | lui | auipc | cLi => exact sameOutcome_writeReg rfl h h'
  | addi _ rs1 | slti _ rs1 | sltiu _ rs1 | xori _ rs1 | ori _ rs1 | andi _ rs1 | slli _ rs1 | srli _ rs1
  | srai _ rs1 | cAddi rs1 =>
    have h1 := hread rs1 (by simp [sourcesOf])
    exact sameOutcome_writeReg (by rw [h1]) h h'
  | cAddi4spn =>
    have h1 := hread 2#5 (by simp [sourcesOf])
    exact sameOutcome_writeReg (by rw [h1]) h h'
  | add _ rs1 rs2 | sub _ rs1 rs2 | sll _ rs1 rs2 | slt _ rs1 rs2 | sltu _ rs1 rs2 | xor _ rs1 rs2
  | srl _ rs1 rs2 | sra _ rs1 rs2 | or _ rs1 rs2 | and _ rs1 rs2 =>
    have h1 := hread rs1 (by simp [sourcesOf])
    have h2 := hread rs2 (by simp [sourcesOf])
    exact sameOutcome_writeReg (by rw [h1, h2]) h h'
  | jal | cJal => exact sameOutcome_linkAndJump rfl h h'
  | jalr _ rs1 =>
    have h1 := hread rs1 (by simp [sourcesOf])
    exact sameOutcome_linkAndJump (congrArg (· + _ &&& _) h1) h h'
  | beq rs1 rs2 | bne rs1 rs2 | blt rs1 rs2 | bge rs1 rs2 | bltu rs1 rs2 | bgeu rs1 rs2 =>
    have h1 := hread rs1 (by simp [sourcesOf])
    have h2 := hread rs2 (by simp [sourcesOf])
    exact sameOutcome_branch (by rw [h1, h2]) h h'
  | lb _ rs1 | lh _ rs1 | lw _ rs1 | lbu _ rs1 | lhu _ rs1 =>
    have h1 := hread rs1 (by simp [sourcesOf])
    exact sameOutcome_load (congrArg (· + _) h1) h h'
  | cLw _ rs1 =>
    have h1 := hread (cReg rs1) (by simp [sourcesOf, cReg])
    exact sameOutcome_load (congrArg (· + _) h1) h h'
  | sb rs1 rs2 | sh rs1 rs2 | sw rs1 rs2 =>
    have h1 := hread rs1 (by simp [sourcesOf])
    have h2 := hread rs2 (by simp [sourcesOf])
    exact sameOutcome_store (congrArg (· + _) h1) (by rw [h2]) h h'
  | cSw rs1 rs2 =>
    have h1 := hread (cReg rs1) (by simp [sourcesOf, cReg])
    have h2 := hread (cReg rs2) (by simp [sourcesOf, cReg])
    exact sameOutcome_store (congrArg (· + _) h1) (by rw [h2]) h h'
  | fence | cNop => cases h; cases h'; exact sameOutcome_setPc rfl
  | ecall | ebreak | cIllegal | cReserved => cases h; cases h'; exact sameOutcome_raise _

end Sys2Proof.Proofs
end

section
/-! Registers, reset, and the step of an instruction that lies at `pc` (10_state.md R22, R35, R36). -/

namespace Sys2Proof.Proofs
open Sys2Proof.Machine

/-- Settles O9, from the one law of a read after a write. -/
theorem zeroRegisterIsHardwired : Obligations.ZeroRegisterIsHardwired := by
  refine fun s v => ⟨getX_zero s, setX_zero s v, fun rd r hrd => ?_⟩
  rw [getX_setX]
  by_cases hr : r = 0#5
  · subst hr; rw [if_pos rfl, if_neg hrd.symm, getX_zero]
  · rw [if_neg hr]

/-! ## Reset -/

/-- The 31 stored registers with the values `f` gives x1 to x31. -/
def regsOf (f : RegIdx → Word) : Vector Word 31 := Vector.ofFn fun k => f (BitVec.ofNat 5 (k + 1))

theorem getX_regsOf {s : State} {f : RegIdx → Word} (hx : s.x = regsOf f) {r : RegIdx} (hr : r ≠ 0#5) :
    s.getX r = f r := by
  have hpos := regIdx_toNat_pos hr
  simp [State.getX, hr, hx, regsOf, Nat.sub_add_cancel hpos]

/-- Settles O5: `State.boot` holds its parameters, and `regsOf` gives the registers any values. -/
theorem resetHoldsTheParameters : Obligations.ResetHoldsTheParameters := by
  refine ⟨fun p => ⟨boot_pc p, getX_zero _, fun _ => rfl, boot_memMap p, boot_halt p, ?_, boot_mode p⟩, ?_⟩
  · simp
  · intro map init pc f
    let p : BootParams := ⟨pc, init, map, regsOf f⟩
    exact ⟨p, rfl, rfl, rfl, fun r => getX_regsOf (boot_x p)⟩

/-- A hart that has just been reset with legal parameters is in a good state. -/
theorem inv_boot {p : BootParams} (hp : p.Legal) : Inv (State.boot p) where
  mem_wf := hp.mem_wf
  dirty_wf := by simp [dirtyWf]
  pc_even := hp.pc_even
  map_wf := hp.map_wf
  halt_wf := haltWf_of_running (boot_halt p)

/-- The model's own parameters are legal (log entries 1 to 4). -/
theorem default_legal : BootParams.default.Legal where
  pc_even := rfl
  mem_wf := by simp [BootParams.default, Memory.wf]
  map_wf := by simp [BootParams.default, Config.defaultMemMap, mapWf]

/-- Settles O7: the model's own parameters are one legal choice. -/
theorem resetIsGood : Obligations.ResetIsGood :=
  ⟨inv_boot default_legal, fun _ => inv_boot⟩

/-- Settles O49: reset puts the image and the map in place and writes nothing. -/
theorem bootHoldsWhatIsLoaded : Obligations.BootHoldsWhatIsLoaded :=
  fun _ => ⟨rfl, fun _ _ => rfl⟩

/-! ## The instruction at `pc` -/

theorem step_of_current {s : State} {i : Instr} (hs : s.halt = .running) (hi : current s i) :
    step s = exec i s := by
  obtain ⟨iw, hf, hd⟩ := hi
  simp [step, hs, State.stepWith, hf, State.decodeFetched, hd]

/-- A parcel whose bytes are executable and clean is fetched (20_memory.md R55, R56). -/
theorem fetchParcel_of_clean {s : State} {a : Word} (hp : permitted s .execute a 2) (hd : ¬ anyDirty s a 2)
    (k : Parcel → Fetched) : s.fetchParcel a k = k (s.mem.byteAt (a + 1#32) ++ s.mem.byteAt a) := by
  rcases fetchParcel_cases s a k with ⟨h, -⟩ | ⟨-, h, -⟩ | ⟨-, -, e⟩
  · exact absurd hp h
  · exact absurd h hd
  · exact e

section Ranges
variable {s : State} {addr : Word} {m : Nat}

/-- Permission for a range is permission for every range inside it. -/
theorem permitted_sub {k : Access} {n : Nat} (j : Nat) (hjn : j + n ≤ m) (h : permitted s k addr m) :
    permitted s k (addr + BitVec.ofNat 32 j) n := by
  intro l hl
  rw [BitVec.add_assoc, ← BitVec.ofNat_add]
  exact h (j + l) (by omega)

/-- A range inside a clean range is clean. -/
theorem not_anyDirty_sub {n : Nat} (j : Nat) (hjn : j + n ≤ m) (h : ¬ anyDirty s addr m) :
    ¬ anyDirty s (addr + BitVec.ofNat 32 j) n := by
  rintro ⟨l, hl, hd⟩
  rw [BitVec.add_assoc, ← BitVec.ofNat_add] at hd
  exact h ⟨j + l, by omega, hd⟩

end Ranges

/-- The two lengths (30_encoding.md R70): what `decodeBytes` makes of four bytes. -/
theorem decodeBytes_four {b0 b1 b2 b3 : Byte} {i : Instr} {rest : List Byte}
    (h : decodeBytes [b0, b1, b2, b3] = .ok (i, rest)) :
    (isLong (b1 ++ b0) = true ∧ rest = [] ∧ decode32 (b3 ++ b2 ++ b1 ++ b0) = .ok i) ∨
      (isLong (b1 ++ b0) = false ∧ rest = [b2, b3] ∧ decode16 (b1 ++ b0) = .ok i) := by
  rw [decodeBytes] at h
  split at h
  · next hl =>
    cases hd : decode32 (b3 ++ b2 ++ b1 ++ b0) with
    | error r => rw [hd] at h; cases h
    | ok j => rw [hd] at h; cases h; exact .inl ⟨hl, rfl, rfl⟩
  · next hl =>
    cases hd : decode16 (b1 ++ b0) with
    | error r => rw [hd] at h; cases h
    | ok j => rw [hd] at h; cases h; exact .inr ⟨by simpa using hl, rfl, rfl⟩

/-- Two parcels of two bytes each are a word of four bytes. -/
theorem append_parcels (b0 b1 b2 b3 : Byte) : ((b3 ++ b2) ++ (b1 ++ b0) : Word) = b3 ++ b2 ++ b1 ++ b0 := by
  exact BitVec.append_assoc'

/-- Settles O17: the fetch of R55 puts together the bytes that `decodeBytes` reads, for either length. -/
theorem stepRunsTheDecodedInstruction : Obligations.StepRunsTheDecodedInstruction := by
  intro s i rest hs _ hdec hperm hclean
  refine step_of_current hs ?_
  rcases decodeBytes_four hdec with ⟨hl, rfl, hi⟩ | ⟨hl, rfl, hi⟩
  · have hlo := fetchParcel_of_clean (by simpa using permitted_sub 0 (by decide) hperm)
      (by simpa using not_anyDirty_sub 0 (by decide) hclean)
    have hhi := fetchParcel_of_clean (permitted_sub 2 (by decide) hperm)
      (not_anyDirty_sub 2 (by decide) hclean)
    refine ⟨.word _, ?_, hi⟩
    rw [State.fetch, hlo, if_pos hl, hhi, BitVec.add_assoc, append_parcels]
    rfl
  · refine ⟨.parcel _, ?_, hi⟩
    rw [State.fetch, fetchParcel_of_clean hperm hclean, hl]
    rfl

end Sys2Proof.Proofs
end

section
/-! The values of little-endian accesses and the statements about MemRead and MemWrite
(20_memory.md R43 to R46). -/

namespace Sys2Proof.Proofs
open Sys2Proof.Machine

/-! ## The value of an access (20_memory.md R43) -/

theorem toNat_append_byte {n : Nat} (x : BitVec n) (b : Byte) : (x ++ b).toNat = x.toNat * 256 + b.toNat := by
  rw [BitVec.toNat_append, ← Nat.shiftLeft_add_eq_or_of_lt b.isLt, Nat.shiftLeft_eq]

theorem toNat_readLE (m : Memory) (addr : Word) (n : Width) :
    (m.readLE addr n).toNat = leValue m addr n.bytes := by
  cases n with
  | byte => simp [Memory.readLE, leValue]
  | half => simp [Memory.readLE, leValue, toNat_append_byte]; omega
  | word => simp [Memory.readLE, leValue, toNat_append_byte]; omega

/-- Byte `k` of a little-endian write is bits 8k+7:8k of the value (20_memory.md R45). -/
theorem byteAt_writeLE_inside (m : Memory) (addr : Word) (n : Width) (v : BitVec n.bits) {k : Nat}
    (hk : k < n.bytes) :
    (m.writeLE addr n v).byteAt (addr + BitVec.ofNat 32 k) = v.extractLsb' (8 * k) 8 := by
  cases n with
  | byte =>
    obtain rfl : k = 0 := Nat.lt_one_iff.1 hk
    simp [Memory.writeLE, byteAt_setByte, BitVec.extractLsb'_eq_self]
  | half => interval_cases k <;> simp [Memory.writeLE, byteAt_setByte]
  | word => interval_cases k <;> simp [Memory.writeLE, byteAt_setByte]

theorem toNat_extractLsb'_byte {w : Nat} (v : BitVec w) (k : Nat) :
    (v.extractLsb' (8 * k) 8).toNat = v.toNat / 256 ^ k % 256 := by
  rw [BitVec.extractLsb'_toNat, Nat.shiftRight_eq_div_pow, Nat.pow_mul]

/-- A read whose bytes are bytes of `v`, from byte `j` on, gives those bits of `v`. -/
theorem readLE_eq_extractLsb' {m : Memory} {addr : Word} {w : Nat} {v : BitVec w} (j : Nat) (n : Width)
    (h : ∀ k < n.bytes, m.byteAt (addr + BitVec.ofNat 32 k) = v.extractLsb' (8 * (j + k)) 8) :
    m.readLE addr n = v.extractLsb' (8 * j) n.bits := by
  have h0 : m.byteAt addr = v.extractLsb' (8 * j) 8 := by simpa using h 0 (bytes_pos n)
  cases n with
  | byte => exact h0
  | half =>
    rw [Memory.readLE, h0, h 1 (by decide)]
    exact BitVec.extractLsb'_append_extractLsb'_eq_extractLsb' (by omega)
  | word =>
    rw [Memory.readLE, h0, h 1 (by decide), h 2 (by decide), h 3 (by decide),
      BitVec.extractLsb'_append_extractLsb'_eq_extractLsb' (by omega),
      BitVec.extractLsb'_append_extractLsb'_eq_extractLsb' (by omega)]
    exact BitVec.extractLsb'_append_extractLsb'_eq_extractLsb' (by omega)

/-- A read inside a range that was written gives the corresponding bits of what was written (R46). -/
theorem readLE_writeLE_inside (m : Memory) (addr : Word) {n : Width} (v : BitVec n.bits) {j : Nat}
    {n' : Width} (hj : j + n'.bytes ≤ n.bytes) :
    (m.writeLE addr n v).readLE (addr + BitVec.ofNat 32 j) n' = v.extractLsb' (8 * j) n'.bits := by
  refine readLE_eq_extractLsb' j n' fun k hk => ?_
  rw [BitVec.add_assoc, ← BitVec.ofNat_add]
  exact byteAt_writeLE_inside _ _ _ _ (by omega)

/-! ## MemRead and MemWrite (20_memory.md R44 to R46) -/

/-- Settles O10: the three cases of MemRead exclude each other, and the value is that of the bytes. -/
theorem memReadChecksThenReads : Obligations.MemReadChecksThenReads := by
  intro s addr n
  rcases memRead_cases s addr n with ⟨halign, e⟩ | ⟨halign, hperm, e⟩ | ⟨halign, hperm, e⟩
  · exact ⟨fun _ => e, fun h => absurd h halign, fun h => absurd h halign⟩
  · exact ⟨fun h => absurd halign h, fun _ _ => e, fun _ h => absurd h hperm⟩
  · exact ⟨fun h => absurd halign h, fun _ h => absurd hperm h, fun _ _ => ⟨_, e, toNat_readLE _ _ _⟩⟩

/-- A write of `n` bytes and of their addresses to `dirty` changes nothing else (R45). -/
theorem onlyBytes_writeLE (s : State) (addr : Word) (n : Width) (v : BitVec n.bits) :
    onlyBytes s { s with mem := s.mem.writeLE addr n v, dirty := dirtyAdd s.dirty addr n.bytes }
      addr n.bytes v.toNat := by
  refine ⟨fun _ => rfl, ⟨rfl, rfl, rfl⟩, fun a => ?_, fun a => ?_⟩
  · split
    · next hin =>
      have hbyte := byteAt_writeLE_inside s.mem addr n v hin
      rw [BitVec.ofNat_toNat, BitVec.setWidth_eq, BitVec.add_comm, BitVec.sub_add_cancel] at hbyte
      rw [hbyte, toNat_extractLsb'_byte]
    · next hout =>
      rw [offset_lt_iff (bytes_le n)] at hout
      rw [byteAt_writeLE_of_outside _ _ _ _ _ fun k hk hka => hout ⟨k, hk, hka⟩]
  · simp only [mem_dirtyAdd, offset_lt_iff (bytes_le n), BitVec.toNat_inj]

/-- Settles O11: the three cases of MemWrite exclude each other, and the last one writes only its bytes. -/
theorem memWriteChecksThenWrites : Obligations.MemWriteChecksThenWrites := by
  intro s addr n v
  rcases memWrite_cases s addr n v with ⟨halign, e⟩ | ⟨halign, hperm, e⟩ | ⟨halign, hperm, e⟩
  · exact ⟨fun _ => e, fun h => absurd h halign, fun h => absurd h halign⟩
  · exact ⟨fun h => absurd halign h, fun _ _ => e, fun _ h => absurd h hperm⟩
  · exact ⟨fun h => absurd halign h, fun _ h => absurd hperm h,
      fun _ _ => ⟨_, e, onlyBytes_writeLE s addr n v, rfl⟩⟩

theorem memRead_of_permitted {s : State} {addr : Word} {n : Width} (halign : addr.toNat % n.bytes = 0)
    (hperm : permitted s .read addr n.bytes) : s.memRead addr n = .ok (s.mem.readLE addr n) := by
  rcases memRead_cases s addr n with ⟨h, -⟩ | ⟨-, h, -⟩ | ⟨-, -, e⟩
  · exact absurd halign h
  · exact absurd hperm h
  · exact e

/-- A write that answers a state was aligned, and changed `mem` and `dirty` only. -/
theorem memWrite_ok {s t : State} {addr : Word} {n : Width} {v : BitVec n.bits}
    (h : s.memWrite addr n v = .ok t) :
    addr.toNat % n.bytes = 0 ∧
      t = { s with mem := s.mem.writeLE addr n v, dirty := dirtyAdd s.dirty addr n.bytes } := by
  rcases memWrite_cases s addr n v with ⟨-, e⟩ | ⟨-, -, e⟩ | ⟨halign, -, e⟩ <;> rw [e] at h <;> cases h
  exact ⟨halign, rfl⟩

/-- An offset that is a multiple of the width keeps an address of a word aligned. -/
theorem add_offset_aligned {a : Word} {j : Nat} {n : Width} (ha : a.toNat % Width.word.bytes = 0)
    (hj : j % n.bytes = 0) : (a + BitVec.ofNat 32 j).toNat % n.bytes = 0 := by
  rw [toNat_add_ofNat]
  cases n <;> dsimp only [Width.bytes] at * <;> omega

/-- 20_memory.md R46: an aligned read inside a word that was written gives those bits of it. -/
theorem memRead_after_memWrite_word {s t : State} {a v : Word} (hwrite : s.memWrite a .word v = .ok t)
    (hperm : permitted s .read a 4) (j : Nat) (n : Width) (hj : j % n.bytes = 0) (hjn : j + n.bytes ≤ 4) :
    t.memRead (a + BitVec.ofNat 32 j) n = .ok (v.extractLsb' (8 * j) n.bits) := by
  obtain ⟨halign, ht⟩ := memWrite_ok hwrite
  have hpermt : permitted t .read a 4 := by rw [ht]; exact hperm
  rw [memRead_of_permitted (add_offset_aligned halign hj) (permitted_sub j hjn hpermt), ht]
  exact congrArg _ (readLE_writeLE_inside (n := .word) s.mem a v hjn)

/-- Settles O12: the seven reads are aligned reads inside the word, three of them at its first byte. -/
theorem narrowReadsSeeTheStoredWord : Obligations.NarrowReadsSeeTheStoredWord := by
  intro s t a v hwrite hperm
  have hread := memRead_after_memWrite_word hwrite hperm
  have hfirst : ∀ n : Width, n.bytes ≤ 4 → t.memRead a n = .ok (v.extractLsb' 0 n.bits) := fun n hn => by
    simpa using hread 0 n (Nat.zero_mod _) (by omega)
  have hword : t.memRead a .word = .ok v := by
    rw [hfirst .word (by decide), BitVec.extractLsb'_eq_self]
  exact ⟨hfirst .byte (by decide), hread 1 .byte rfl (by decide), hread 2 .byte rfl (by decide),
    hread 3 .byte rfl (by decide), hfirst .half (by decide), hread 2 .half rfl (by decide), hword⟩

end Sys2Proof.Proofs
end

section
/-! What a run keeps of memory and of the map, and what a fetch gives (20_memory.md R53, R55, R56). -/

namespace Sys2Proof.Proofs
open Sys2Proof.Machine

/-! ## Clean bytes (20_memory.md R53) -/

section Steps
variable {s t : State}

/-- A byte that is clean after a step was clean before it, and was not changed. -/
theorem step_clean (h : step s = .next t) {a : Word} (ha : a.toNat ∉ t.dirty) :
    a.toNat ∉ s.dirty ∧ t.mem.byteAt a = s.mem.byteAt a := by
  obtain ⟨hgrow, hchange⟩ := changedBytesAreDirty s t h a
  exact ⟨fun hd => ha (hgrow hd), by_contra fun hne => ha (hchange hne)⟩

theorem step_memMap (h : step s = .next t) : t.memMap = s.memMap := by
  obtain ⟨-, ⟨e, -, rfl⟩ | ⟨i, -, h⟩⟩ := step_next h
  · rfl
  · exact (Effect.of_exec h).mapMode.1

end Steps

/-- Settles O14, by induction on the run: its last step changed no byte that is clean at its end. -/
theorem cleanBytesKeepTheirValue : Obligations.CleanBytesKeepTheirValue := by
  intro s t hrun a
  induction hrun with
  | refl => exact fun _ => rfl
  | step _ hstep ih =>
    intro ha
    obtain ⟨hclean, hsame⟩ := step_clean hstep ha
    rw [hsame, ih hclean]

/-! ## One parcel -/

section Parcel
variable {s : State} {a : Word} {k : Parcel → Fetched}

/-- A fetch lacks permission at this parcel or in what follows it. -/
theorem fetchParcel_eq_noPermission_iff :
    s.fetchParcel a k = .noPermission ↔
      ¬ permitted s .execute a 2 ∨ ¬ anyDirty s a 2 ∧ k (s.mem.readLE a .half) = .noPermission := by
  rcases fetchParcel_cases s a k with ⟨hp, e⟩ | ⟨hp, hd, e⟩ | ⟨hp, hd, e⟩
  · simp [e, hp]
  · simp [e, hp, hd]
  · simp [e, hp, hd]

/-- A fetch is refused at this parcel or by what follows it. -/
theorem fetchParcel_eq_modified_iff :
    s.fetchParcel a k = .modified ↔
      permitted s .execute a 2 ∧ (anyDirty s a 2 ∨ k (s.mem.readLE a .half) = .modified) := by
  rcases fetchParcel_cases s a k with ⟨hp, e⟩ | ⟨hp, hd, e⟩ | ⟨hp, hd, e⟩
  · simp [e, hp]
  · simp [e, hp, hd]
  · simp [e, hp, hd]

/-- A fetch that delivers bits found this parcel executable and clean, and went on with its bits. -/
theorem fetchParcel_eq_got_iff {iw : InstWord} :
    s.fetchParcel a k = .got iw ↔
      permitted s .execute a 2 ∧ ¬ anyDirty s a 2 ∧ k (s.mem.readLE a .half) = .got iw := by
  rcases fetchParcel_cases s a k with ⟨hp, e⟩ | ⟨hp, hd, e⟩ | ⟨hp, hd, e⟩
  · simp [e, hp]
  · simp [e, hd]
  · simp [e, hp, hd]

end Parcel

/-! ## The fetch of loaded code (20_memory.md R56) -/

section Loaded
variable {p : BootParams} {t : State}

/-- A step keeps the map and every byte outside `dirty` as loaded. -/
theorem loadedKept_step {u : State} (ht : LoadedKept p t) (h : step t = .next u) : LoadedKept p u where
  map_eq := (step_memMap h).trans ht.map_eq
  clean_eq a ha := by
    obtain ⟨hclean, hsame⟩ := step_clean h ha
    rw [hsame, ht.clean_eq a hclean]

theorem loadedKept_of_reaches (h : Reaches (State.boot p) t) : LoadedKept p t := by
  induction h with
  | refl => exact bootHoldsWhatIsLoaded p
  | step _ hstep ih => exact loadedKept_step ih hstep

/-- A clean parcel has the bits that were loaded. -/
theorem readLE_half_of_loadedKept (ht : LoadedKept p t) {a : Word} (hclean : ¬ anyDirty t a 2) :
    t.mem.readLE a .half = p.memInit.readLE a .half := by
  have hbyte : ∀ j < 2, t.mem.byteAt (a + BitVec.ofNat 32 j) = p.memInit.byteAt (a + BitVec.ofNat 32 j) :=
    fun j hj => ht.clean_eq _ fun hd => hclean ⟨j, hj, hd⟩
  have hlow : t.mem.byteAt a = p.memInit.byteAt a := by simpa using hbyte 0 (by decide)
  rw [Memory.readLE, Memory.readLE, hlow, hbyte 1 (by decide)]

/-- What a fetch gets of a parcel it gets right after reset too, with whatever `pc`. -/
theorem fetchParcel_boot_of_loadedKept (ht : LoadedKept p t) {pc a : Word} {iw : InstWord}
    {k k' : Parcel → Fetched} (hk : ∀ lo, k lo = .got iw → k' lo = .got iw) (h : t.fetchParcel a k = .got iw) :
    ((State.boot p).setPc pc).fetchParcel a k' = .got iw := by
  obtain ⟨hperm, hclean, hgot⟩ := fetchParcel_eq_got_iff.1 h
  have hbootPerm : permitted ((State.boot p).setPc pc) .execute a 2 := by
    rwa [permitted, ht.map_eq] at hperm
  have hbootClean : ¬ anyDirty ((State.boot p).setPc pc) a 2 := by simp [anyDirty]
  rw [readLE_half_of_loadedKept ht hclean] at hgot
  exact fetchParcel_eq_got_iff.2 ⟨hbootPerm, hbootClean, hk _ hgot⟩

/-- What is fetched where clean bytes are as loaded is fetched right after reset at the same `pc`. -/
theorem fetch_boot_of_loadedKept (ht : LoadedKept p t) {iw : InstWord} (h : t.fetch = .got iw) :
    ((State.boot p).setPc t.pc).fetch = .got iw := by
  refine fetchParcel_boot_of_loadedKept ht (fun lo hlo => ?_) h
  split at hlo
  · next hlong => rw [if_pos hlong]; exact fetchParcel_boot_of_loadedKept ht (fun _ => id) hlo
  · next hshort => rwa [if_neg hshort]

end Loaded

/-- Settles O50: clean bytes stay as loaded, and a fetch reads clean bytes only. -/
theorem stepKeepsLoadedCode : Obligations.StepKeepsLoadedCode :=
  fun _ _ ht => ⟨fun _ => loadedKept_step ht, fun _ => fetch_boot_of_loadedKept ht⟩

/-- Settles O19: what holds right after reset and is kept by every step holds along every run. -/
theorem executedCodeIsInitialCode : Obligations.ExecutedCodeIsInitialCode :=
  fun _ _ _ hrun => fetch_boot_of_loadedKept (loadedKept_of_reaches hrun)

/-! ## The parcels of a fetch (20_memory.md R55, R56) -/

theorem readLE_eq_ofNat (m : Memory) (addr : Word) (n : Width) :
    m.readLE addr n = BitVec.ofNat n.bits (leValue m addr n.bytes) := by
  rw [← toNat_readLE, BitVec.ofNat_toNat, BitVec.setWidth_eq]

/-- The length test of 30_encoding.md R70 on the parcel at an address, in terms of its value. -/
theorem isLong_readLE_iff (m : Memory) (addr : Word) :
    isLong (m.readLE addr .half) = true ↔ leValue m addr 2 % 4 = 3 := by
  rw [← toNat_readLE m addr .half]
  simp [isLong, ← BitVec.toNat_inj]

theorem readLE_word_eq_append (m : Memory) (addr : Word) :
    m.readLE (addr + 2#32) .half ++ m.readLE addr .half = m.readLE addr .word := by
  rw [Memory.readLE, Memory.readLE, BitVec.add_assoc, append_parcels]
  rfl

section Running
variable {s : State}

theorem step_of_noPermission (hs : s.halt = .running) (hf : s.fetch = .noPermission) :
    step s = .next (trapped s .instructionAccessFault s.pc) := by
  rw [step, hs]
  show s.stepWith exec = _
  rw [State.stepWith, hf]
  rfl

/-- The one reason for a refusal is a byte in `dirty`: no instruction is refused. -/
theorem step_eq_refused_iff (hs : s.halt = .running) {r : Refusal} :
    step s = .refused r ↔ s.fetch = .modified ∧ r = .selfModifyingCode s.pc := by
  rcases step_cases s hs with ⟨hf, e⟩ | ⟨hf, e⟩ | ⟨iw, _, hf, -, e⟩ | ⟨iw, i, hf, -, e⟩
  · simp [e, hf]
  · simp [e, hf, eq_comm]
  · simp [e, hf]
  · obtain ⟨t, hnext⟩ := everyInstructionAnswersANextState i s
    simp [e, hf, hnext]

/-- A fetch lacks permission at its first parcel, or at the second one of a long instruction (R55). -/
theorem fetch_eq_noPermission_iff :
    s.fetch = .noPermission ↔ ¬ permitted s .execute s.pc 2 ∨
      ¬ anyDirty s s.pc 2 ∧ leValue s.mem s.pc 2 % 4 = 3 ∧ ¬ permitted s .execute (s.pc + 2#32) 2 := by
  rw [State.fetch, fetchParcel_eq_noPermission_iff, ← isLong_readLE_iff]
  cases isLong (s.mem.readLE s.pc .half) with
  | false => simp
  | true => simp [fetchParcel_eq_noPermission_iff]

/-- A fetch is refused at its first parcel, or at the second one of a long instruction (R56, log entry 6). -/
theorem fetch_eq_modified_iff :
    s.fetch = .modified ↔ permitted s .execute s.pc 2 ∧
      (anyDirty s s.pc 2 ∨ leValue s.mem s.pc 2 % 4 = 3 ∧ permitted s .execute (s.pc + 2#32) 2 ∧
        anyDirty s (s.pc + 2#32) 2) := by
  rw [State.fetch, fetchParcel_eq_modified_iff, ← isLong_readLE_iff]
  cases isLong (s.mem.readLE s.pc .half) with
  | false => simp
  | true => simp [fetchParcel_eq_modified_iff]

theorem fetch_of_clean_short (hp : permitted s .execute s.pc 2) (hd : ¬ anyDirty s s.pc 2)
    (hl : leValue s.mem s.pc 2 % 4 ≠ 3) : s.fetch = .got (.parcel (s.mem.readLE s.pc .half)) :=
  fetchParcel_eq_got_iff.2 ⟨hp, hd, if_neg (mt (isLong_readLE_iff ..).1 hl)⟩

theorem fetch_of_clean_long (hp : permitted s .execute s.pc 2) (hd : ¬ anyDirty s s.pc 2)
    (hl : leValue s.mem s.pc 2 % 4 = 3) (hp2 : permitted s .execute (s.pc + 2#32) 2)
    (hd2 : ¬ anyDirty s (s.pc + 2#32) 2) : s.fetch = .got (.word (s.mem.readLE s.pc .word)) := by
  refine fetchParcel_eq_got_iff.2 ⟨hp, hd, ?_⟩
  rw [if_pos ((isLong_readLE_iff ..).2 hl), ← readLE_word_eq_append]
  exact fetchParcel_eq_got_iff.2 ⟨hp2, hd2, rfl⟩

end Running

/-- Settles O15, parcel by parcel in the order of R55. -/
theorem fetchReadsParcels : Obligations.FetchReadsParcels := by
  refine fun s hs => ⟨fun hp => ?_, fun hp hd => ⟨fun hl => ?_, fun hl hp2 => ?_, fun hl hp2 hd2 => ?_⟩⟩
  · exact step_of_noPermission hs (fetch_eq_noPermission_iff.2 (.inl hp))
  · rw [fetch_of_clean_short hp hd hl, readLE_eq_ofNat]
  · exact step_of_noPermission hs (fetch_eq_noPermission_iff.2 (.inr ⟨hd, hl, hp2⟩))
  · rw [fetch_of_clean_long hp hd hl hp2 hd2, readLE_eq_ofNat]

/-- Settles O16: a step is refused exactly when its fetch is. -/
theorem selfModifyingFetchIsRefused : Obligations.SelfModifyingFetchIsRefused := by
  intro s hs
  refine ⟨?_, fun r hr => ((step_eq_refused_iff hs).1 hr).2⟩
  rw [← fetch_eq_modified_iff]
  simp [step_eq_refused_iff hs]

end Sys2Proof.Proofs
end

section
/-! What the map of permissions grants, and that every access fault has a byte it does not grant
(20_memory.md R50, 60_exceptions.md R252, R255). -/

namespace Sys2Proof.Proofs
open Sys2Proof.Machine

/-! ## The regions of a legal map -/

/-- The regions of a legal map do not overlap, so a byte lies in at most one of them. -/
theorem eq_of_regionCovers {map : MemMap} (hmap : mapWf map) {r q : Region} (hr : r ∈ map) (hq : q ∈ map)
    {a : Word} (hra : regionCovers r a = true) (hqa : regionCovers q a = true) : r = q := by
  have : Std.Symm fun r q : Region =>
      r.base.toNat + r.size ≤ q.base.toNat ∨ q.base.toNat + q.size ≤ r.base.toNat := ⟨fun _ _ => Or.symm⟩
  by_contra hne
  have hapart := hmap.2.forall hr hq hne
  simp only [regionCovers, Bool.and_eq_true, decide_eq_true_eq] at hra hqa
  omega

/-- In a legal map the region a byte lies in decides its permissions. -/
theorem mapAllows_eq_regionGrants {map : MemMap} (hmap : mapWf map) {r : Region} (hr : r ∈ map) {a : Word}
    (hra : regionCovers r a = true) (k : Access) : mapAllows map k a = regionGrants r k := by
  rw [Bool.eq_iff_iff, mapAllows, List.any_eq_true]
  constructor
  · rintro ⟨q, hq, hgrant⟩
    obtain ⟨hqa, hgrant⟩ := Bool.and_eq_true_iff.1 hgrant
    rwa [eq_of_regionCovers hmap hr hq hra hqa]
  · exact fun hgrant => ⟨r, hr, by rw [hra, hgrant]; rfl⟩

/-! ## The bytes behind an access fault -/

/-- An access fault is explained: some byte lacks the permission that the access needs. The other exceptions
have nothing to do with the map. -/
def FaultExplained (s : State) : Cause → Prop
  | .instructionAccessFault => ∃ a, ¬ mapGrants s.memMap .execute a
  | .loadAccessFault => ∃ a, ¬ mapGrants s.memMap .read a
  | .storeAccessFault => ∃ a, ¬ mapGrants s.memMap .write a
  | _ => True

theorem exists_not_granted {s : State} {k : Access} {addr : Word} {n : Nat} (h : ¬ permitted s k addr n) :
    ∃ a, ¬ mapGrants s.memMap k a := by
  by_contra hall
  exact h fun j _ => by_contra fun hj => hall ⟨_, hj⟩

/-- A next state is reached without an exception, or by one that is explained. -/
def Explained (s t : State) : Prop :=
  t.halt = s.halt ∨ ∃ e : Trap, t = s.raise e ∧ FaultExplained s e.cause

section Shapes
variable {s t : State} {rd : RegIdx} {addr ilen : Word} {n : Width}

theorem explained_load {ext : BitVec n.bits → Word} (h : s.load rd addr n ext ilen = .next t) :
    Explained s t := by
  rcases load_cases s rd addr n ext ilen with ⟨-, e⟩ | ⟨-, hp, e⟩ | ⟨-, -, e⟩ <;> rw [e] at h <;> cases h
  · exact .inr ⟨_, rfl, trivial⟩
  · exact .inr ⟨_, rfl, exists_not_granted hp⟩
  · exact .inl (by simp)

theorem explained_store {v : BitVec n.bits} (h : s.store addr n v ilen = .next t) : Explained s t := by
  rcases store_cases s addr n v ilen with ⟨-, e⟩ | ⟨-, hp, e⟩ | ⟨-, -, e⟩ <;> rw [e] at h <;> cases h
  · exact .inr ⟨_, rfl, trivial⟩
  · exact .inr ⟨_, rfl, exists_not_granted hp⟩
  · exact .inl rfl

theorem explained_branch {c : Bool} {offset : Word} (h : s.branch c offset = .next t) : Explained s t := by
  cases h; cases c <;> exact .inl rfl

end Shapes

/-- Every row's meaning is one of the shapes; only loads and stores ask the map. -/
theorem explained_exec {i : Instr} {s t : State} (h : exec i s = .next t) : Explained s t := by
  cases i with
  | lui | auipc | addi | slti | sltiu | xori | ori | andi | slli | srli | srai | add | sub | sll | slt
  | sltu | xor | srl | sra | or | and | cAddi4spn | cAddi | cLi | jal | jalr | cJal =>
    cases h; exact .inl (setX_halt ..)
  | beq | bne | blt | bge | bltu | bgeu => exact explained_branch h
  | lb | lh | lw | lbu | lhu | cLw => exact explained_load h
  | sb | sh | sw | cSw => exact explained_store h
  | fence | cNop => cases h; exact .inl rfl
  | ecall | ebreak | cIllegal | cReserved => cases h; exact .inr ⟨_, rfl, trivial⟩

/-- Every step that takes an exception explains it: an access fault has a byte without permission. -/
theorem explained_step {s t : State} (h : step s = .next t) : Explained s t := by
  cases hs : s.halt with
  | halted c epc v => rw [step_halted s hs] at h; cases h
  | running =>
    rcases step_cases s hs with ⟨hf, e⟩ | ⟨-, e⟩ | ⟨_, _, -, -, e⟩ | ⟨_, _, -, -, e⟩ <;> rw [e] at h
    · cases h
      refine .inr ⟨_, rfl, ?_⟩
      rcases fetch_eq_noPermission_iff.1 hf with hp | ⟨-, -, hp⟩
      · exact exists_not_granted hp
      · exact exists_not_granted hp
    · cases h
    · cases h; exact .inr ⟨_, rfl, trivial⟩
    · exact explained_exec h

/-- The default map of R50 grants every byte every permission. -/
theorem mapGrants_default (k : Access) (a : Word) : mapGrants Config.defaultMemMap k a :=
  ⟨_, List.mem_singleton_self _, Nat.zero_le _, by simpa using a.isLt, by cases k <;> rfl⟩

/-- Where every byte has every permission, no access fault is explained. -/
theorem not_accessFault_of_default {s : State} (hmap : s.memMap = Config.defaultMemMap) {c : Cause}
    (h : FaultExplained s c) :
    c ≠ .instructionAccessFault ∧ c ≠ .loadAccessFault ∧ c ≠ .storeAccessFault := by
  have hgrant : ∀ k, ¬ ∃ a, ¬ mapGrants s.memMap k a := fun k ⟨a, ha⟩ => ha (hmap ▸ mapGrants_default k a)
  refine ⟨?_, ?_, ?_⟩ <;> rintro rfl
  · exact hgrant _ h
  · exact hgrant _ h
  · exact hgrant _ h

/-- Settles O48: the machine's check is R50's reading; regions of a legal map share no byte; and an access fault
would need a byte that the default map does not grant. -/
theorem memMapGrantsPermissions : Obligations.MemMapGrantsPermissions := by
  refine ⟨mapAllows_iff_mapGrants, fun map r a hmap hr hlo hhi => ?_, rfl, fun s t c epc v hmap h ht => ?_⟩
  · have hra : regionCovers r a = true := by simp [regionCovers, hlo, hhi]
    exact ⟨mapAllows_eq_regionGrants hmap hr hra .read, mapAllows_eq_regionGrants hmap hr hra .write,
      mapAllows_eq_regionGrants hmap hr hra .execute⟩
  · rcases explained_step h with hsame | ⟨e, rfl, he⟩
    · rw [ht, (step_next h).1] at hsame; cases hsame
    · cases ht; exact not_accessFault_of_default hmap he

end Sys2Proof.Proofs
end

section
/-! The decoder against the encoder, both ways (30_encoding.md R70, R71, R93, R94). -/

namespace Sys2Proof.Proofs
open Sys2Proof.Laws

/-! ## Decoding what was encoded -/

/-- A 32-bit encoding shows its opcode and function fields to the decoder, and the fields of its format read
back what was packed. -/
theorem decode32_encode {i : Instr} {w : Word} (h : encode i = .word w) : decode32 w = .ok i := by
  cases i with
  | cIllegal | cNop | cAddi4spn | cLw | cReserved | cSw | cAddi | cJal | cLi => cases h
  | lui | auipc | jal => cases h; simp [decode32]
  | jalr => cases h; simp [decode32, decodeJalr]
  | beq | bne | blt | bge | bltu | bgeu => cases h; simp [decode32, decodeBranch]
  | lb | lh | lw | lbu | lhu => cases h; simp [decode32, decodeLoad]
  | sb | sh | sw => cases h; simp [decode32, decodeStore]
  | addi | slti | sltiu | xori | ori | andi => cases h; simp [decode32, decodeOpImm]
  | slli => cases h; simp [decode32, decodeOpImm, decodeShiftLeftImm]
  | srli | srai => cases h; simp [decode32, decodeOpImm, decodeShiftRightImm]
  | add | sub | sll | slt | sltu | xor | srl | sra | or | and => cases h; simp [decode32, decodeOp]
  | fence => cases h; simp [decode32, decodeFence]
  | ecall | ebreak => cases h; rfl

/-- C.ADDI4SPN with its constraint is not C.ILLEGAL, which is tried first (R94). -/
theorem packCIW_ne_zero {nzuimm : BitVec 8} (h : nzuimm ≠ 0#8) (rd : CRegIdx) :
    packCIW 0b000#3 nzuimm rd 0b00#2 ≠ 0x0000#16 := by
  intro e
  exact h ((immCIWOf_packCIW ..).symm.trans (congrArg immCIWOf e))

/-- C.ADDI with its constraint is not C.NOP, which is tried first (R94). -/
theorem packCI_ne_one {rd : RegIdx} (h : rd ≠ 0#5) (nzimm : BitVec 6) :
    packCI 0b000#3 nzimm rd 0b01#2 ≠ 0x0001#16 := by
  intro e
  exact h ((cRdOf_packCI ..).symm.trans (congrArg cRdOf e))

/-- A 16-bit encoding is read back where the constraint of its row holds. -/
theorem decode16_encode {i : Instr} {h : Parcel} (hi : i.wellFormed = true) (he : encode i = .parcel h) :
    decode16 h = .ok i := by
  cases i with
  | cIllegal | cNop => cases he; rfl
  | cLw | cSw | cReserved | cJal => cases he; simp [decode16]
  | cAddi4spn rd nzuimm =>
    have hnz : nzuimm ≠ 0#8 := by simpa [Instr.wellFormed] using hi
    cases he
    simp [decode16, decodeQ0F0, packCIW_ne_zero hnz, hnz]
  | cAddi rd nzimm =>
    have hnz : rd ≠ 0#5 ∧ nzimm ≠ 0#6 := by simpa [Instr.wellFormed] using hi
    cases he
    simp [decode16, decodeQ1F0, packCI_ne_one hnz.1, hnz]
  | cLi rd imm =>
    have hnz : rd ≠ 0#5 := by simpa [Instr.wellFormed] using hi
    cases he
    simp [decode16, decodeQ1F2, hnz]
  | _ => cases he

/-! ## The bytes of an encoding (20_memory.md R43) -/

/-- Bits 1:0 of every encoding tell its length (R70). -/
theorem lengthBits (i : Instr) : LengthBits.Statement i := by
  cases i with
  | lui | auipc => exact LengthBits.of_word rfl (opcodeOf_packU ..) rfl
  | jal => exact LengthBits.of_word rfl (opcodeOf_packJ ..) rfl
  | jalr | lb | lh | lw | lbu | lhu | addi | slti | sltiu | xori | ori | andi =>
    exact LengthBits.of_word rfl (opcodeOf_packI ..) rfl
  | beq | bne | blt | bge | bltu | bgeu => exact LengthBits.of_word rfl (opcodeOf_packB ..) rfl
  | sb | sh | sw => exact LengthBits.of_word rfl (opcodeOf_packS ..) rfl
  | slli | srli | srai | add | sub | sll | slt | sltu | xor | srl | sra | or | and =>
    exact LengthBits.of_word rfl (opcodeOf_packR ..) rfl
  | fence => exact LengthBits.of_word rfl (opcodeOf_packFence ..) rfl
  | ecall => exact LengthBits.ecall
  | ebreak => exact LengthBits.ebreak
  | cIllegal => exact LengthBits.cIllegal
  | cNop => exact LengthBits.cNop
  | cAddi4spn rd nzuimm => exact LengthBits.cAddi4spn rd nzuimm
  | cLw rd rs1 uimm => exact LengthBits.cLw rd rs1 uimm
  | cReserved bits => exact LengthBits.cReserved bits
  | cSw rs1 rs2 uimm => exact LengthBits.cSw rs1 rs2 uimm
  | cAddi rd nzimm => exact LengthBits.cAddi rd nzimm
  | cJal imm => exact LengthBits.cJal imm
  | cLi rd imm => exact LengthBits.cLi rd imm

theorem bytes_of_word_append (w : Word) :
    w.extractLsb' 24 8 ++ w.extractLsb' 16 8 ++ w.extractLsb' 8 8 ++ w.extractLsb' 0 8 = w := by
  refine ext_bits fun i hi => ?_
  simp only [BitVec.getLsbD_extractLsb', BitVec.getLsbD_append]
  interval_cases i <;> simp

theorem bytes_of_parcel_append (h : Parcel) : h.extractLsb' 8 8 ++ h.extractLsb' 0 8 = h := by
  refine ext_bits fun i hi => ?_
  simp only [BitVec.getLsbD_extractLsb', BitVec.getLsbD_append]
  interval_cases i <;> simp

/-- The length test reads the first parcel of a word only (R70). -/
theorem isLong_low_bytes (w : Word) :
    isLong (w.extractLsb' 8 8 ++ w.extractLsb' 0 8) = decide (w.extractLsb' 0 2 = 0b11#2) := by
  have : (w.extractLsb' 8 8 ++ w.extractLsb' 0 8).extractLsb' 0 2 = w.extractLsb' 0 2 := by
    refine ext_bits fun i hi => ?_
    simp only [BitVec.getLsbD_extractLsb', BitVec.getLsbD_append]
    interval_cases i <;> simp
  rw [isLong, this]

theorem decodeBytes_word {w : Word} (hw : w.extractLsb' 0 2 = 0b11#2) (rest : List Byte) :
    decodeBytes ((InstWord.word w).bytes ++ rest) = (decode32 w).map (·, rest) := by
  simp only [InstWord.bytes, bytesOfWord, List.cons_append, List.nil_append, decodeBytes, isLong_low_bytes,
    hw, bytes_of_word_append, decide_true, if_true]

theorem decodeBytes_parcel {h : Parcel} (hh : h.extractLsb' 0 2 ≠ 0b11#2) (rest : List Byte) :
    decodeBytes ((InstWord.parcel h).bytes ++ rest) = (decode16 h).map (·, rest) := by
  simp [InstWord.bytes, decodeBytes, bytes_of_parcel_append, isLong, hh]

/-- Settles O1: the length bits of the encoding choose the decoder of its length, which reads it back. -/
theorem decodeInvertsEncode : Obligations.DecodeInvertsEncode := by
  intro i rest hi
  have hlen := lengthBits i
  rw [LengthBits.Statement] at hlen
  rw [encodeBytes]
  cases he : encode i with
  | word w =>
    rw [he] at hlen
    rw [decodeBytes_word hlen, decode32_encode he]
    rfl
  | parcel h =>
    rw [he] at hlen
    rw [decodeBytes_parcel hlen, decode16_encode hi he]
    rfl

/-! ## Encoding what was decoded

The fixed bits of the row, as the decoder has read them, and the fields of the format make up the word. -/

section Packed
variable {w : Word} {f7 : BitVec 7} {f3 : BitVec 3} {op : BitVec 7}

theorem packR_eq (h7 : funct7Of w = f7) (h3 : funct3Of w = f3) (ho : opcodeOf w = op) :
    packR f7 (rs2Of w) (rs1Of w) f3 (rdOf w) op = w := by
  rw [← h7, ← h3, ← ho, packR_fields]

theorem packI_eq (h3 : funct3Of w = f3) (ho : opcodeOf w = op) :
    packI (immIOf w) (rs1Of w) f3 (rdOf w) op = w := by
  rw [← h3, ← ho, packI_fields]

theorem packS_eq (h3 : funct3Of w = f3) (ho : opcodeOf w = op) :
    packS (immSOf w) (rs2Of w) (rs1Of w) f3 op = w := by
  rw [← h3, ← ho, packS_fields]

theorem packB_eq (h3 : funct3Of w = f3) (ho : opcodeOf w = op) :
    packB (immBOf w) (rs2Of w) (rs1Of w) f3 op = w := by
  rw [← h3, ← ho, packB_fields]

theorem packU_eq (ho : opcodeOf w = op) : packU (immUOf w) (rdOf w) op = w := by
  rw [← ho, packU_fields]

theorem packJ_eq (ho : opcodeOf w = op) : packJ (immJOf w) (rdOf w) op = w := by
  rw [← ho, packJ_fields]

theorem packFence_eq (h3 : funct3Of w = f3) (ho : opcodeOf w = op) :
    packFence (w.extractLsb' 28 4) (w.extractLsb' 24 4) (w.extractLsb' 20 4) (rs1Of w) f3 (rdOf w) op =
      w := by
  rw [← h3, ← ho, packFence_fields]

end Packed

section Parcels
variable {h : Parcel} {f3 : BitVec 3} {op : BitVec 2}

theorem packCIW_eq (h3 : h.extractLsb' 13 3 = f3) (ho : h.extractLsb' 0 2 = op) :
    packCIW f3 (immCIWOf h) (cLowRegOf h) op = h := by
  rw [← h3, ← ho, packCIW_fields]

theorem packCL_eq (h3 : h.extractLsb' 13 3 = f3) (ho : h.extractLsb' 0 2 = op) :
    packCL f3 (immCLOf h) (cRs1Of h) (cLowRegOf h) op = h := by
  rw [← h3, ← ho, packCL_fields]

theorem packCI_eq (h3 : h.extractLsb' 13 3 = f3) (ho : h.extractLsb' 0 2 = op) :
    packCI f3 (immCIOf h) (cRdOf h) op = h := by
  rw [← h3, ← ho, packCI_fields]

theorem packCJ_eq (h3 : h.extractLsb' 13 3 = f3) (ho : h.extractLsb' 0 2 = op) :
    packCJ f3 (immCJOf h) op = h := by
  rw [← h3, ← ho, packCJ_fields]

end Parcels

/-! The subdecoders of one opcode each (R92). -/

section Words
variable {w : Word} {i : Instr}

theorem encode_of_decodeJalr (ho : opcodeOf w = 0b1100111#7) (h : decodeJalr w = .ok i) :
    encode i = .word w := by
  rw [decodeJalr] at h
  split at h
  case h_2 => cases h
  next h3 => cases h; exact congrArg InstWord.word (packI_eq h3 ho)

theorem encode_of_decodeBranch (ho : opcodeOf w = 0b1100011#7) (h : decodeBranch w = .ok i) :
    encode i = .word w := by
  rw [decodeBranch] at h
  split at h
  case h_7 => cases h
  all_goals next h3 => cases h; exact congrArg InstWord.word (packB_eq h3 ho)

theorem encode_of_decodeLoad (ho : opcodeOf w = 0b0000011#7) (h : decodeLoad w = .ok i) :
    encode i = .word w := by
  rw [decodeLoad] at h
  split at h
  case h_6 => cases h
  all_goals next h3 => cases h; exact congrArg InstWord.word (packI_eq h3 ho)

theorem encode_of_decodeStore (ho : opcodeOf w = 0b0100011#7) (h : decodeStore w = .ok i) :
    encode i = .word w := by
  rw [decodeStore] at h
  split at h
  case h_4 => cases h
  all_goals next h3 => cases h; exact congrArg InstWord.word (packS_eq h3 ho)

theorem encode_of_decodeShiftLeftImm (ho : opcodeOf w = 0b0010011#7) (h3 : funct3Of w = 0b001#3)
    (h : decodeShiftLeftImm w = .ok i) : encode i = .word w := by
  rw [decodeShiftLeftImm] at h
  split at h
  case h_2 => cases h
  next h7 => cases h; exact congrArg InstWord.word (packR_eq h7 h3 ho)

theorem encode_of_decodeShiftRightImm (ho : opcodeOf w = 0b0010011#7) (h3 : funct3Of w = 0b101#3)
    (h : decodeShiftRightImm w = .ok i) : encode i = .word w := by
  rw [decodeShiftRightImm] at h
  split at h
  case h_3 => cases h
  all_goals next h7 => cases h; exact congrArg InstWord.word (packR_eq h7 h3 ho)

theorem encode_of_decodeOpImm (ho : opcodeOf w = 0b0010011#7) (h : decodeOpImm w = .ok i) :
    encode i = .word w := by
  rw [decodeOpImm] at h
  split at h
  case h_2 h3 => exact encode_of_decodeShiftLeftImm ho h3 h
  case h_6 h3 => exact encode_of_decodeShiftRightImm ho h3 h
  case h_9 => cases h
  all_goals next h3 => cases h; exact congrArg InstWord.word (packI_eq h3 ho)

theorem encode_of_decodeOp (ho : opcodeOf w = 0b0110011#7) (h : decodeOp w = .ok i) :
    encode i = .word w := by
  rw [decodeOp] at h
  split at h
  case h_11 => cases h
  all_goals next h7 h3 => cases h; exact congrArg InstWord.word (packR_eq h7 h3 ho)

theorem encode_of_decodeFence (ho : opcodeOf w = 0b0001111#7) (h : decodeFence w = .ok i) :
    encode i = .word w := by
  rw [decodeFence] at h
  split at h
  case h_2 => cases h
  next h3 => cases h; exact congrArg InstWord.word (packFence_eq h3 ho)

theorem encode_of_decodeSystem (h : decodeSystem w = .ok i) : encode i = .word w := by
  unfold decodeSystem at h
  split at h
  case h_3 => cases h
  all_goals cases h; rfl

/-- No bit of an admitted word is dropped. -/
theorem encode_of_decode32 (h : decode32 w = .ok i) : encode i = .word w := by
  rw [decode32] at h
  split at h
  case h_1 ho => cases h; exact congrArg InstWord.word (packU_eq ho)
  case h_2 ho => cases h; exact congrArg InstWord.word (packU_eq ho)
  case h_3 ho => cases h; exact congrArg InstWord.word (packJ_eq ho)
  case h_4 ho => exact encode_of_decodeJalr ho h
  case h_5 ho => exact encode_of_decodeBranch ho h
  case h_6 ho => exact encode_of_decodeLoad ho h
  case h_7 ho => exact encode_of_decodeStore ho h
  case h_8 ho => exact encode_of_decodeOpImm ho h
  case h_9 ho => exact encode_of_decodeOp ho h
  case h_10 ho => exact encode_of_decodeFence ho h
  case h_11 => exact encode_of_decodeSystem h
  case h_12 => cases h

/-- The constraints of R94 are on 16-bit rows only. -/
theorem wellFormed_of_encode_word (h : encode i = .word w) : i.wellFormed = true := by
  cases i with
  | cAddi4spn | cAddi | cLi => cases h
  | _ => rfl

end Words

/-- No bit of an admitted parcel is dropped, and the decoder has checked the constraint of its row. -/
theorem encode_of_decode16 {h : Parcel} {i : Instr} (hd : decode16 h = .ok i) :
    i.wellFormed = true ∧ encode i = .parcel h := by
  rw [decode16] at hd
  split at hd
  case h_1 h3 ho =>
    rw [decodeQ0F0] at hd
    split at hd
    case isTrue h0 => cases hd; exact ⟨rfl, congrArg InstWord.parcel h0.symm⟩
    split at hd
    case isTrue hnz =>
      cases hd
      exact ⟨decide_eq_true hnz, congrArg InstWord.parcel (packCIW_eq h3 ho)⟩
    case isFalse => cases hd
  case h_2 h3 ho => cases hd; exact ⟨rfl, congrArg InstWord.parcel (packCL_eq h3 ho)⟩
  case h_3 h3 ho => cases hd; exact ⟨rfl, congrArg InstWord.parcel (packReserved_fields h h3 ho)⟩
  case h_4 h3 ho => cases hd; exact ⟨rfl, congrArg InstWord.parcel (packCL_eq h3 ho)⟩
  case h_5 h3 ho =>
    rw [decodeQ1F0] at hd
    split at hd
    case isTrue h1 => cases hd; exact ⟨rfl, congrArg InstWord.parcel h1.symm⟩
    split at hd
    case isTrue hnz =>
      cases hd
      exact ⟨by simp [Instr.wellFormed, hnz], congrArg InstWord.parcel (packCI_eq h3 ho)⟩
    case isFalse => cases hd
  case h_6 h3 ho => cases hd; exact ⟨rfl, congrArg InstWord.parcel (packCJ_eq h3 ho)⟩
  case h_7 h3 ho =>
    rw [decodeQ1F2] at hd
    split at hd
    case isTrue hnz =>
      cases hd
      exact ⟨decide_eq_true hnz, congrArg InstWord.parcel (packCI_eq h3 ho)⟩
    case isFalse => cases hd
  case h_8 => cases hd

/-- Settles O2, for either length. -/
theorem encodeInvertsDecode : Obligations.EncodeInvertsDecode := by
  intro iw i hd
  cases iw with
  | parcel h => exact encode_of_decode16 hd
  | word w =>
    have he := encode_of_decode32 hd
    exact ⟨wellFormed_of_encode_word he, he⟩

end Sys2Proof.Proofs
end

section
/-! The decoder against the row lists (30_encoding.md R71, R93, R94). -/

namespace Sys2Proof.Proofs
open Sys2Proof.Machine

/-- A list searched for its first match finds what `d` says, when every match is named by `d` and `d` names
something only where there is a match. -/
theorem find?_map_eq {α : Type} {rows : List α} {p : α → Bool} {name : α → String} {d : Option String}
    (hsound : ∀ r ∈ rows, p r = true → d = some (name r))
    (hcomplete : d ≠ none → ∃ r ∈ rows, p r = true) : (rows.find? p).map name = d := by
  cases hf : rows.find? p with
  | some r => exact (hsound r (List.mem_of_find?_eq_some hf) (List.find?_some hf)).symm
  | none =>
    by_contra hd
    obtain ⟨r, hr, hp⟩ := hcomplete (Ne.symm hd)
    exact List.find?_eq_none.1 hf r hr hp

/-! ## The fixed bits of a word: the masks of R93 and the fields they cover -/

section Word
variable {w v : Word}

theorem and_opcode_mask (w : Word) : w &&& 0x0000007F#32 = packU 0#20 0#5 (opcodeOf w) := by
  refine ext_bits fun i hi => ?_
  simp only [packU, opcodeOf, BitVec.getLsbD_and, BitVec.getLsbD_extractLsb', BitVec.getLsbD_append]
  interval_cases i <;> simp

theorem and_funct3_mask (w : Word) :
    w &&& 0x0000707F#32 = packI 0#12 0#5 (funct3Of w) 0#5 (opcodeOf w) := by
  refine ext_bits fun i hi => ?_
  simp only [packI, opcodeOf, funct3Of, BitVec.getLsbD_and, BitVec.getLsbD_extractLsb',
    BitVec.getLsbD_append]
  interval_cases i <;> simp

theorem and_funct7_mask (w : Word) :
    w &&& 0xFE00707F#32 = packR (funct7Of w) 0#5 0#5 (funct3Of w) 0#5 (opcodeOf w) := by
  refine ext_bits fun i hi => ?_
  simp only [packR, opcodeOf, funct3Of, funct7Of, BitVec.getLsbD_and, BitVec.getLsbD_extractLsb',
    BitVec.getLsbD_append]
  interval_cases i <;> simp

theorem opcodeOf_eq_of_masked (h : w &&& 0x0000007F#32 = v &&& 0x0000007F#32) :
    opcodeOf w = opcodeOf v := by
  simpa [and_opcode_mask] using congrArg opcodeOf h

theorem funct3Of_eq_of_masked (h : w &&& 0x0000707F#32 = v &&& 0x0000707F#32) :
    funct3Of w = funct3Of v ∧ opcodeOf w = opcodeOf v := by
  rw [and_funct3_mask, and_funct3_mask] at h
  exact ⟨by simpa using congrArg funct3Of h, by simpa using congrArg opcodeOf h⟩

theorem funct7Of_eq_of_masked (h : w &&& 0xFE00707F#32 = v &&& 0xFE00707F#32) :
    funct7Of w = funct7Of v ∧ funct3Of w = funct3Of v ∧ opcodeOf w = opcodeOf v := by
  rw [and_funct7_mask, and_funct7_mask] at h
  exact ⟨by simpa using congrArg funct7Of h, by simpa using congrArg funct3Of h,
    by simpa using congrArg opcodeOf h⟩

theorem eq_of_masked_allOnes (h : w &&& 0xFFFFFFFF#32 = v &&& 0xFFFFFFFF#32) : w = v := by
  simpa using (BitVec.and_allOnes (x := w)).symm.trans (h.trans BitVec.and_allOnes)

end Word

/-- R93's mask of the row of a 32-bit instruction: the bits that its format fixes. A 16-bit instruction has no
row in R93, and no bit is fixed for it. -/
def fixedMask : Instr → Word
  | .lui _ _ | .auipc _ _ | .jal _ _ => 0x0000007F#32
  | .slli _ _ _ | .srli _ _ _ | .srai _ _ _ => 0xFE00707F#32
  | .add _ _ _ | .sub _ _ _ | .sll _ _ _ | .slt _ _ _ | .sltu _ _ _ => 0xFE00707F#32
  | .xor _ _ _ | .srl _ _ _ | .sra _ _ _ | .or _ _ _ | .and _ _ _ => 0xFE00707F#32
  | .ecall | .ebreak => 0xFFFFFFFF#32
  | .jalr _ _ _ => 0x0000707F#32
  | .beq _ _ _ | .bne _ _ _ | .blt _ _ _ | .bge _ _ _ | .bltu _ _ _ | .bgeu _ _ _ => 0x0000707F#32
  | .lb _ _ _ | .lh _ _ _ | .lw _ _ _ | .lbu _ _ _ | .lhu _ _ _ => 0x0000707F#32
  | .sb _ _ _ | .sh _ _ _ | .sw _ _ _ => 0x0000707F#32
  | .addi _ _ _ | .slti _ _ _ | .sltiu _ _ _ | .xori _ _ _ | .ori _ _ _ | .andi _ _ _ => 0x0000707F#32
  | .fence _ _ _ _ _ => 0x0000707F#32
  | .cIllegal | .cNop | .cAddi4spn _ _ | .cLw _ _ _ | .cReserved _ | .cSw _ _ _ => 0x00000000#32
  | .cAddi _ _ | .cJal _ | .cLi _ _ => 0x00000000#32

/-- The mnemonic of what the decoder makes of a word. -/
def mnemonic32 (w : Word) : Option String := (decode32 w).toOption.map Instr.mnemonic

/-- The fixed bits of a word decide its row. -/
theorem mnemonic32_of_masked_eq {i : Instr} {v w : Word} (hv : encode i = .word v)
    (h : w &&& fixedMask i = v &&& fixedMask i) : mnemonic32 w = some i.mnemonic := by
  cases i with
  | cIllegal | cNop | cAddi4spn | cLw | cReserved | cSw | cAddi | cJal | cLi => cases hv
  | lui | auipc | jal =>
    cases hv
    simp [mnemonic32, Except.toOption, Instr.mnemonic, decode32, opcodeOf_eq_of_masked h]
  | jalr | beq | bne | blt | bge | bltu | bgeu | lb | lh | lw | lbu | lhu | sb | sh | sw
  | addi | slti | sltiu | xori | ori | andi | fence =>
    cases hv
    simp [mnemonic32, Except.toOption, Instr.mnemonic, decode32, decodeJalr, decodeBranch, decodeLoad,
      decodeStore, decodeOpImm, decodeFence, funct3Of_eq_of_masked h]
  | slli | srli | srai | add | sub | sll | slt | sltu | xor | srl | sra | or | and =>
    cases hv
    simp [mnemonic32, Except.toOption, Instr.mnemonic, decode32, decodeOpImm, decodeShiftLeftImm,
      decodeShiftRightImm, decodeOp, funct7Of_eq_of_masked h]
  | ecall | ebreak =>
    cases hv
    obtain rfl := eq_of_masked_allOnes h
    rfl

/-- The row of an encoded instruction is in the list. -/
theorem row_mem_rows32 {i : Instr} {w : Word} (h : encode i = .word w) :
    (i.mnemonic, w &&& fixedMask i, fixedMask i) ∈ rows32 := by
  cases i with
  | cIllegal | cNop | cAddi4spn | cLw | cReserved | cSw | cAddi | cJal | cLi => cases h
  | lui | auipc | jal =>
    cases h
    simp only [Instr.mnemonic, fixedMask, and_opcode_mask, opcodeOf_packU, opcodeOf_packJ]
    decide
  | jalr | beq | bne | blt | bge | bltu | bgeu | lb | lh | lw | lbu | lhu | sb | sh | sw
  | addi | slti | sltiu | xori | ori | andi | fence =>
    cases h
    simp only [Instr.mnemonic, fixedMask, and_funct3_mask, opcodeOf_packI, funct3Of_packI,
      opcodeOf_packB, funct3Of_packB, opcodeOf_packS, funct3Of_packS, opcodeOf_packFence,
      funct3Of_packFence]
    decide
  | slli | srli | srai | add | sub | sll | slt | sltu | xor | srl | sra | or | and =>
    cases h
    simp only [Instr.mnemonic, fixedMask, and_funct7_mask, opcodeOf_packR, funct3Of_packR, funct7Of_packR]
    decide
  | ecall | ebreak => cases h; decide

/-- Every row of the list is the row of the instruction its match word decodes to. -/
theorem rows32_decode : ∀ r ∈ rows32, (decode32 r.2.1).toOption.map
    (fun i => (i.mnemonic, r.2.1 &&& fixedMask i, fixedMask i)) = some r := by
  decide

theorem rows32_mnemonics_nodup : (rows32.map (·.1)).Nodup := by decide

theorem toOption_eq_some {ε α : Type} {e : Except ε α} {a : α} (h : e.toOption = some a) : e = .ok a := by
  cases e with
  | error => cases h
  | ok b => cases h; rfl

/-- A word that matches a row of R93 is read as that row. -/
theorem mnemonic32_of_row {r : String × Word × Word} (hr : r ∈ rows32) {w : Word}
    (h : w &&& r.2.2 = r.2.1) : mnemonic32 w = some r.1 := by
  obtain ⟨i, hi, hrow⟩ := Option.map_eq_some_iff.1 (rows32_decode r hr)
  have hname : i.mnemonic = r.1 := congrArg (·.1) hrow
  have hmatch : r.2.1 &&& fixedMask i = r.2.1 := congrArg (·.2.1) hrow
  have hmask : fixedMask i = r.2.2 := congrArg (·.2.2) hrow
  rw [← hname]
  exact mnemonic32_of_masked_eq (encode_of_decode32 (toOption_eq_some hi)) (by rw [hmatch, hmask, h])

/-- A word that is read as an instruction matches a row of R93. -/
theorem exists_row32 {w : Word} (h : mnemonic32 w ≠ none) : ∃ r ∈ rows32, w &&& r.2.2 = r.2.1 := by
  obtain ⟨m, hm⟩ := Option.ne_none_iff_exists'.1 h
  obtain ⟨i, hi, -⟩ := Option.map_eq_some_iff.1 hm
  exact ⟨_, row_mem_rows32 (encode_of_decode32 (toOption_eq_some hi)), rfl⟩

/-! ## The fixed bits of a parcel and the constraints of R94 -/

section Parcel
variable {h m : Parcel}

theorem and_parcel_mask (h : Parcel) :
    h &&& 0xE003#16 = packCI (h.extractLsb' 13 3) 0#6 0#5 (h.extractLsb' 0 2) := by
  refine ext_bits fun i hi => ?_
  simp only [packCI, BitVec.getLsbD_and, BitVec.getLsbD_extractLsb', BitVec.getLsbD_append]
  interval_cases i <;> simp

theorem and_nzuimm_mask (h : Parcel) :
    h &&& 0x1FE0#16 = packCIW 0#3 (immCIWOf h) 0#3 0#2 := by
  refine ext_bits fun i hi => ?_
  simp only [packCIW, immCIWOf, BitVec.getLsbD_and, BitVec.getLsbD_extractLsb', BitVec.getLsbD_append]
  interval_cases i <;> simp

theorem and_rd_mask (h : Parcel) : h &&& 0x0F80#16 = packCI 0#3 0#6 (cRdOf h) 0#2 := by
  refine ext_bits fun i hi => ?_
  simp only [packCI, cRdOf, BitVec.getLsbD_and, BitVec.getLsbD_extractLsb', BitVec.getLsbD_append]
  interval_cases i <;> simp

theorem and_nzimm_mask (h : Parcel) : h &&& 0x107C#16 = packCI 0#3 (immCIOf h) 0#5 0#2 := by
  refine ext_bits fun i hi => ?_
  simp only [packCI, immCIOf, BitVec.getLsbD_and, BitVec.getLsbD_extractLsb', BitVec.getLsbD_append]
  interval_cases i <;> simp

theorem and_nzuimm_eq_zero_iff : h &&& 0x1FE0#16 = 0#16 ↔ immCIWOf h = 0#8 := by
  rw [and_nzuimm_mask]
  exact ⟨fun e => (immCIWOf_packCIW ..).symm.trans (congrArg immCIWOf e), fun e => by rw [e]; rfl⟩

theorem and_rd_eq_zero_iff : h &&& 0x0F80#16 = 0#16 ↔ cRdOf h = 0#5 := by
  rw [and_rd_mask]
  exact ⟨fun e => (cRdOf_packCI ..).symm.trans (congrArg cRdOf e), fun e => by rw [e]; rfl⟩

theorem and_nzimm_eq_zero_iff : h &&& 0x107C#16 = 0#16 ↔ immCIOf h = 0#6 := by
  rw [and_nzimm_mask]
  exact ⟨fun e => (immCIOf_packCI ..).symm.trans (congrArg immCIOf e), fun e => by rw [e]; rfl⟩

theorem high_low_of_match (hm : h &&& 0xE003#16 = m) :
    h.extractLsb' 13 3 = m.extractLsb' 13 3 ∧ h.extractLsb' 0 2 = m.extractLsb' 0 2 := by
  rw [← hm, and_parcel_mask]
  exact ⟨(high_packCI ..).symm, (low_packCI ..).symm⟩

theorem and_parcel_mask_eq {f3 : BitVec 3} {op : BitVec 2} (h3 : h.extractLsb' 13 3 = f3)
    (ho : h.extractLsb' 0 2 = op) : h &&& 0xE003#16 = packCI f3 0#6 0#5 op := by
  rw [and_parcel_mask, h3, ho]

/-- The mnemonic of what the decoder makes of a parcel. -/
def mnemonic16 (h : Parcel) : Option String := (decode16 h).toOption.map Instr.mnemonic

/-- A parcel that matches a row of R94 with its constraint is read as that row. -/
theorem mnemonic16_of_row {r : String × Parcel × Parcel × (Parcel → Bool)} (hr : r ∈ rows16)
    (hm : h &&& r.2.2.1 = r.2.1) (hc : r.2.2.2 h = true) : mnemonic16 h = some r.1 := by
  simp only [rows16, List.mem_append, List.mem_cons, List.not_mem_nil, or_false] at hr
  rcases hr with (rfl | rfl | rfl | hfree) | (rfl | rfl | rfl)
  · obtain rfl : h = 0x0000#16 := BitVec.and_allOnes.symm.trans hm
    rfl
  · obtain rfl : h = 0x0001#16 := BitVec.and_allOnes.symm.trans hm
    rfl
  · have hnz : immCIWOf h ≠ 0#8 := by simpa [and_nzuimm_eq_zero_iff] using hc
    have h0 : h ≠ 0x0000#16 := by rintro rfl; exact hnz rfl
    simp [mnemonic16, Except.toOption, Instr.mnemonic, decode16, high_low_of_match hm, decodeQ0F0, h0, hnz]
  · rcases hfree with rfl | rfl | rfl
    all_goals simp [mnemonic16, Except.toOption, Instr.mnemonic, decode16, high_low_of_match hm]
  · have hnz : cRdOf h ≠ 0#5 ∧ immCIOf h ≠ 0#6 := by
      simpa [and_rd_eq_zero_iff, and_nzimm_eq_zero_iff] using hc
    have h1 : h ≠ 0x0001#16 := by rintro rfl; exact hnz.1 rfl
    simp [mnemonic16, Except.toOption, Instr.mnemonic, decode16, high_low_of_match hm, decodeQ1F0, h1, hnz]
  · simp [mnemonic16, Except.toOption, Instr.mnemonic, decode16, high_low_of_match hm]
  · have hnz : cRdOf h ≠ 0#5 := by simpa [and_rd_eq_zero_iff] using hc
    simp [mnemonic16, Except.toOption, Instr.mnemonic, decode16, high_low_of_match hm, decodeQ1F2, hnz]

/-- A parcel that is read as an instruction matches a row of R94 with its constraint. -/
theorem exists_row16 (hd : mnemonic16 h ≠ none) :
    ∃ r ∈ rows16, h &&& r.2.2.1 = r.2.1 ∧ r.2.2.2 h = true := by
  obtain ⟨m, hm⟩ := Option.ne_none_iff_exists'.1 hd
  obtain ⟨i, hi, -⟩ := Option.map_eq_some_iff.1 hm
  obtain ⟨hwf, he⟩ := encode_of_decode16 (toOption_eq_some hi)
  cases i with
  | cIllegal => cases he; exact ⟨rows16[0], List.getElem_mem _, rfl, rfl⟩
  | cNop => cases he; exact ⟨rows16[1], List.getElem_mem _, rfl, rfl⟩
  | cAddi4spn rd nzuimm =>
    have hnz : nzuimm ≠ 0#8 := of_decide_eq_true hwf
    cases he
    exact ⟨rows16[2], List.getElem_mem _, and_parcel_mask_eq (high_packCIW ..) (low_packCIW ..),
      by simp [rows16, and_nzuimm_eq_zero_iff, hnz]⟩
  | cLw =>
    cases he
    exact ⟨rows16[3], List.getElem_mem _, and_parcel_mask_eq (high_packCL ..) (low_packCL ..), rfl⟩
  | cReserved =>
    cases he
    exact ⟨rows16[4], List.getElem_mem _, and_parcel_mask_eq (high_packReserved _) (low_packReserved _),
      rfl⟩
  | cSw =>
    cases he
    exact ⟨rows16[5], List.getElem_mem _, and_parcel_mask_eq (high_packCL ..) (low_packCL ..), rfl⟩
  | cAddi rd nzimm =>
    have hnz : rd ≠ 0#5 ∧ nzimm ≠ 0#6 := by simpa [Instr.wellFormed] using hwf
    cases he
    exact ⟨rows16[6], List.getElem_mem _, and_parcel_mask_eq (high_packCI ..) (low_packCI ..),
      by simp [rows16, and_rd_eq_zero_iff, and_nzimm_eq_zero_iff, hnz]⟩
  | cJal =>
    cases he
    exact ⟨rows16[7], List.getElem_mem _, and_parcel_mask_eq (high_packCJ ..) (low_packCJ ..), rfl⟩
  | cLi rd imm =>
    have hnz : rd ≠ 0#5 := of_decide_eq_true hwf
    cases he
    exact ⟨rows16[8], List.getElem_mem _, and_parcel_mask_eq (high_packCI ..) (low_packCI ..),
      by simp [rows16, and_rd_eq_zero_iff, hnz]⟩
  | _ => cases he

end Parcel

/-- Settles O3: every matching row is the one the decoder reads, and what the decoder reads has a matching
row; so the first match is that row, and two matches have one mnemonic. -/
theorem decodeFollowsRowLists : Obligations.DecodeFollowsRowLists := by
  refine ⟨fun w => ?_, fun w r hr q hq hwr hwq => ?_, fun h => ?_, fun h r hr q hq hhr hcr hhq hcq => ?_⟩
  · refine find?_map_eq (fun r hr hp => mnemonic32_of_row hr (eq_of_beq hp)) fun hd => ?_
    obtain ⟨r, hr, hm⟩ := exists_row32 hd
    exact ⟨r, hr, beq_iff_eq.2 hm⟩
  · refine List.inj_on_of_nodup_map rows32_mnemonics_nodup hr hq (Option.some.inj ?_)
    rw [← mnemonic32_of_row hr hwr, ← mnemonic32_of_row hq hwq]
  · refine find?_map_eq (fun r hr hp => ?_) fun hd => ?_
    · obtain ⟨hm, hc⟩ := Bool.and_eq_true_iff.1 hp
      exact mnemonic16_of_row hr (eq_of_beq hm) hc
    · obtain ⟨r, hr, hm, hc⟩ := exists_row16 hd
      exact ⟨r, hr, Bool.and_eq_true_iff.2 ⟨beq_iff_eq.2 hm, hc⟩⟩
  · refine Option.some.inj ?_
    rw [← mnemonic16_of_row hr hhr hcr, ← mnemonic16_of_row hq hhq hcq]

end Sys2Proof.Proofs
end

section
/-! Each 16-bit instruction against the 32-bit one it stands for (30_encoding.md R107). -/

namespace Sys2Proof.Proofs
open Sys2Proof.Machine

/-! ## The operands of an instruction and of its expansion -/

/-- A zero-extended field of R87 or R88 is the same as an I- or S-immediate, whose sign bit it leaves 0. -/
theorem imm12_setWidth {n : Nat} (hn : n < 12) (x : BitVec n) : imm12 (x.setWidth 12) = x.setWidth 32 := by
  have hmsb : (x.setWidth 12).msb = false := by
    simpa [BitVec.msb_setWidth] using BitVec.getLsbD_of_ge x 11 (by omega)
  rw [imm12, BitVec.signExtend_eq_setWidth_of_msb_false hmsb, BitVec.setWidth_setWidth (by omega)]

/-- The immediate of R89 is sign-extended from bit 5, through twelve bits or at once. -/
theorem imm12_signExtend (imm : BitVec 6) : imm12 (imm.signExtend 12) = immCI imm := by
  apply BitVec.eq_of_toInt_eq
  simp only [imm12, immCI]
  rw [BitVec.toInt_signExtend_of_le (by decide), BitVec.toInt_signExtend_of_le (by decide),
    BitVec.toInt_signExtend_of_le (by decide)]

/-- The offset of R91, sign-extended to the field of JAL, is the offset of R85. -/
theorem offsetJ_signExtend (imm : BitVec 11) : offsetJ (imm.signExtend 20) = offsetCJ imm := by
  apply BitVec.eq_of_toInt_eq
  rw [offsetJ, offsetCJ, toInt_append_zero_signExtend (by decide), toInt_append_zero_signExtend (by decide),
    BitVec.toInt_signExtend_of_le (by decide)]

/-! ## Each shape of instruction rule, with either length -/

/-- The long instruction answers `long`, the short one `short`: the same exception, or the same next state but
for `pc`, which is two bytes on. -/
def ShortensTo (s : State) (long short : Result) : Prop :=
  ∃ t, long = .next t ∧
    (t.halt = .running → short = .next { t with pc := s.pc + 2#32 }) ∧
    (t.halt ≠ .running → short = .next t)

section Shapes
variable {s : State}

/-- An exception is taken at `pc`, whatever the length. -/
theorem shortensTo_raise (e : Trap) : ShortensTo s (.next (s.raise e)) (.next (s.raise e)) :=
  ⟨_, rfl, fun h => by simp at h, fun _ => rfl⟩

theorem shortensTo_advance {t : State} (ht : t.halt = .running) (hpc : t.pc = s.pc) :
    ShortensTo s (.next (t.advance 4#32)) (.next (t.advance 2#32)) :=
  ⟨_, rfl, fun _ => by rw [State.advance, State.advance, hpc]; rfl, fun h => absurd ht h⟩

theorem shortensTo_writeReg (hs : s.halt = .running) {rd : RegIdx} {v v' : Word} (hv : v = v') :
    ShortensTo s (s.writeReg rd v 4#32) (s.writeReg rd v' 2#32) := by
  rw [hv]
  exact shortensTo_advance (by simpa using hs) (setX_pc ..)

theorem shortensTo_load (hs : s.halt = .running) {rd : RegIdx} {addr addr' : Word} {n : Width}
    {ext : BitVec n.bits → Word} (ha : addr = addr') :
    ShortensTo s (s.load rd addr n ext 4#32) (s.load rd addr' n ext 2#32) := by
  subst ha
  rw [State.load, State.load]
  cases s.memRead addr n with
  | error e => exact shortensTo_raise e
  | ok v => exact shortensTo_writeReg hs rfl

theorem shortensTo_store (hs : s.halt = .running) {addr addr' : Word} {n : Width} {v : BitVec n.bits}
    (ha : addr = addr') : ShortensTo s (s.store addr n v 4#32) (s.store addr' n v 2#32) := by
  subst ha
  rw [State.store, State.store]
  cases hw : s.memWrite addr n v with
  | error e => exact shortensTo_raise e
  | ok t =>
    obtain ⟨_, _, rfl⟩ := memWrite_ok hw
    exact shortensTo_advance hs rfl

end Shapes

/-! ## The expansions of R107 -/

theorem setX_setX (s : State) (r : RegIdx) (u v : Word) : (s.setX r u).setX r v = s.setX r v := by
  by_cases hr : r = 0#5
  · subst hr; rfl
  · simp [State.setX, hr, Vector.set_set]

theorem setX_setPc (s : State) (r : RegIdx) (v p : Word) :
    (s.setPc p).setX r v = (s.setX r v).setPc p := by
  unfold State.setX
  split <;> rfl

theorem shortensTo_expansion {c e : Instr} {s : State} (hs : s.halt = .running)
    (he : expansionOf c = some e) :
    ShortensTo s (exec e s) (exec c s) := by
  cases c with
  | cAddi4spn =>
    cases he
    exact shortensTo_writeReg hs (congrArg (s.getX _ + ·) (imm12_setWidth (by decide) _))
  | cLw =>
    cases he
    exact shortensTo_load hs (congrArg (s.getX _ + ·) (imm12_setWidth (by decide) _))
  | cSw =>
    cases he
    exact shortensTo_store hs (congrArg (s.getX _ + ·) (imm12_setWidth (by decide) _))
  | cNop => cases he; exact shortensTo_advance hs rfl
  | cAddi =>
    cases he
    exact shortensTo_writeReg hs (congrArg (s.getX _ + ·) (imm12_signExtend _))
  | cLi =>
    cases he
    refine shortensTo_writeReg hs ?_
    rw [imm12_signExtend, getX_zero, BitVec.zero_add]
  | _ => cases he

/-- Settles O47: each row with an expansion has the shape of its rule and the value of its operands; the link
value of JAL is overwritten by that of C.JAL. -/
theorem compressedExecutesAsItsExpansion : Obligations.CompressedExecutesAsItsExpansion := by
  refine ⟨fun c e s hs he => shortensTo_expansion hs he, fun imm s => ⟨_, rfl, ?_⟩⟩
  rw [setX_setPc, setX_setX, offsetJ_signExtend]
  rfl

end Sys2Proof.Proofs
end

section
/-! LUI and AUIPC (40_upper_immediate.md R120, R121). -/

namespace Sys2Proof.Proofs
open Sys2Proof.Machine

/-- The mask of R93's rows without a function field shows the opcode of the match. -/
theorem opcodeOf_of_match {w m : Word} (h : w &&& 0x0000007F#32 = m) : opcodeOf w = opcodeOf m := by
  rw [← h, and_opcode_mask, opcodeOf_packU]

/-- The U-immediate has its low 12 bits zero (30_encoding.md R84). -/
theorem toNat_immU (imm : BitVec 20) : (immU imm).toNat = imm.toNat * 4096 := by
  have happend : (immU imm).toNat = imm.toNat <<< 12 ||| (0#12).toNat := BitVec.toNat_append imm 0#12
  simpa [Nat.shiftLeft_eq] using happend

/-- What an instruction of the form writeReg answers: its value in `rd`, the next pc, and the frame. -/
theorem exists_writeReg_next (s : State) (rd : RegIdx) (v ilen : Word) {P : Word → Prop} (hv : P v) :
    ∃ t u, s.writeReg rd v ilen = .next t ∧ onlyReg s t rd u ∧ P u ∧ t.pc = s.pc + ilen :=
  ⟨_, v, rfl, onlyReg_writeReg s rd v ilen, hv, by simp⟩

/-- Settles O30: the opcode alone decides each of the two rows, and each writes one value to `rd`. -/
theorem upperImmediateResults : Obligations.UpperImmediateResults := by
  refine ⟨fun w h => ?_, fun w h => ?_, fun rd imm s => ⟨?_, ?_⟩⟩
  · have ho : opcodeOf w = 0b0110111#7 := opcodeOf_of_match h
    simp [decode32, ho, rdOf, immUOf]
  · have ho : opcodeOf w = 0b0010111#7 := opcodeOf_of_match h
    simp [decode32, ho, rdOf, immUOf]
  · exact exists_writeReg_next s rd (immU imm) 4#32 (toNat_immU imm)
  · refine exists_writeReg_next s rd (s.pc + immU imm) 4#32 ?_
    rw [BitVec.toNat_add, toNat_immU]

end Sys2Proof.Proofs
end

section
/-! JAL and JALR (41_jumps.md R130, R131). -/

namespace Sys2Proof.Proofs
open Sys2Proof.Machine

/-- The mask of R93's rows with funct3 shows the funct3 and the opcode of the match. -/
theorem funct3Of_of_match {w m : Word} (h : w &&& 0x0000707F#32 = m) :
    funct3Of w = funct3Of m ∧ opcodeOf w = opcodeOf m := by
  rw [← h, and_funct3_mask, funct3Of_packI, opcodeOf_packI]
  exact ⟨rfl, rfl⟩

/-- An offset stored without its bit 0 moves an address by twice what is stored, modulo 2^32. -/
theorem toNat_add_append_zero_signExtend {n : Nat} (hn : n < 32) (a : Word) (imm : BitVec n) :
    ((a + (imm ++ 0#1).signExtend 32).toNat : Int) = (a.toNat + 2 * imm.toInt) % 4294967296 := by
  rw [toNat_add_eq_toInt, toInt_append_zero_signExtend hn]

/-- Forcing bit 0 to zero rounds down to an even number. -/
theorem toNat_and_clearBit0 (a : Word) : (a &&& 0xFFFFFFFE#32).toNat = a.toNat / 2 * 2 := by
  have hmask : 0xFFFFFFFE#32 = BitVec.allOnes 32 <<< 1 := by decide
  rw [hmask, ← BitVec.shiftLeft_ushiftRight, BitVec.toNat_shiftLeft, BitVec.toNat_ushiftRight,
    Nat.shiftRight_eq_div_pow, Nat.shiftLeft_eq]
  omega

/-- Base plus displacement reads the 12-bit immediate as signed (30_encoding.md R81, R82). -/
theorem toNat_baseDisp_imm12 (s : State) (rs1 : RegIdx) (imm : BitVec 12) :
    ((s.baseDisp rs1 (imm12 imm)).toNat : Int) = ((s.getX rs1).toNat + imm.toInt) % 4294967296 := by
  rw [State.baseDisp, toNat_add_eq_toInt, imm12, BitVec.toInt_signExtend_of_le (by decide)]

/-- The target of JALR as R131 computes it: the sum first, then its bit 0 dropped. -/
theorem toNat_jalrTarget (s : State) (rs1 : RegIdx) (imm : BitVec 12) :
    ((s.jalrTarget rs1 imm).toNat : Int) =
      ((s.getX rs1).toNat + imm.toInt) % 4294967296 / 2 * 2 := by
  rw [State.jalrTarget, toNat_and_clearBit0, ← toNat_baseDisp_imm12]
  norm_cast

/-- Settles O31: the opcode alone decides the row, and the target is `pc` plus twice the stored offset. -/
theorem jalLinksAndJumps : Obligations.JalLinksAndJumps := by
  refine ⟨fun w h => ?_, fun rd imm s => ?_⟩
  · have hop : opcodeOf w = 0b1101111#7 := opcodeOf_of_match h
    simp [decode32, hop, rdOf, immJOf]
  · exact ⟨_, rfl, onlyReg_linkAndJump s rd (s.pc + 4#32) (s.pc + offsetJ imm),
      toNat_add_append_zero_signExtend (by decide) s.pc imm⟩

/-- Settles O32: opcode and funct3 decide the row, and the target is computed before the link is written. -/
theorem jalrLinksAndJumpsToEvenTarget : Obligations.JalrLinksAndJumpsToEvenTarget := by
  refine ⟨fun w h => ?_, fun rd rs1 imm s => ?_⟩
  · obtain ⟨hf3, hop⟩ : funct3Of w = 0b000#3 ∧ opcodeOf w = 0b1100111#7 := funct3Of_of_match h
    simp [decode32, decodeJalr, hop, hf3, rdOf, rs1Of, immIOf]
  · exact ⟨_, rfl, onlyReg_linkAndJump s rd (s.pc + 4#32) (s.jalrTarget rs1 imm),
      toNat_jalrTarget s rs1 imm⟩

end Sys2Proof.Proofs
end

section
/-! BEQ, BNE, BLT, BGE, BLTU, BGEU (42_branches.md R140 to R146). -/

namespace Sys2Proof.Proofs
open Sys2Proof.Machine

/-! ## The comparisons as relations of the values compared -/

theorem isEq_eq_decide (a b : Word) : isEq a b = decide (a = b) := rfl

theorem isLtS_eq_decide (a b : Word) : isLtS a b = decide (a.toInt < b.toInt) := rfl

theorem isLtU_eq_decide (a b : Word) : isLtU a b = decide (a.toNat < b.toNat) := rfl

theorem not_isEq_eq_decide (a b : Word) : (!isEq a b) = decide (a ≠ b) := by
  rw [isEq_eq_decide, ← decide_not]

theorem not_isLtS_eq_decide (a b : Word) : (!isLtS a b) = decide (b.toInt ≤ a.toInt) := by
  simp only [isLtS_eq_decide, ← decide_not, not_lt]

theorem not_isLtU_eq_decide (a b : Word) : (!isLtU a b) = decide (b.toNat ≤ a.toNat) := by
  simp only [isLtU_eq_decide, ← decide_not, not_lt]

/-! ## What the rows share -/

/-- Opcode BRANCH (30_encoding.md R93) and the funct3 of a row select that row's instruction. -/
theorem decode32_of_mem_branchRows {w : Word} (hop : opcodeOf w = 0b1100011#7) :
    ∀ row ∈ branchRows, funct3Of w = row.1 →
      decode32 w = .ok (row.2.1 (rs1Of w) (rs2Of w) (immBOf w)) := by
  have hbranch : decode32 w = decodeBranch w := by simp [decode32, hop]
  simp only [branchRows, List.forall_mem_cons, hbranch, decodeBranch]
  refine ⟨?beq, ?bne, ?blt, ?bge, ?bltu, ?bgeu, List.forall_mem_nil _⟩
  all_goals intro hf3; simp only [hf3]

/-- Every row runs the shared form of R140, on the row's own comparison. -/
theorem exec_of_mem_branchRows (rs1 rs2 : RegIdx) (imm : BitVec 12) (s : State) :
    ∀ row ∈ branchRows, exec (row.2.1 rs1 rs2 imm) s =
      s.branch (row.2.2 (s.getX rs1) (s.getX rs2)) (offsetB imm) := by
  have hbranch {c c' : Bool} (h : c = c') : s.branch c (offsetB imm) = s.branch c' (offsetB imm) :=
    congrArg (s.branch · (offsetB imm)) h
  simp only [branchRows, List.forall_mem_cons]
  refine ⟨?beq, ?bne, ?blt, ?bge, ?bltu, ?bgeu, List.forall_mem_nil _⟩
  case beq => exact hbranch (isEq_eq_decide ..)
  case bne => exact hbranch (not_isEq_eq_decide ..)
  case blt => exact hbranch (isLtS_eq_decide ..)
  case bge => exact hbranch (not_isLtS_eq_decide ..)
  case bltu => exact hbranch (isLtU_eq_decide ..)
  case bgeu => exact hbranch (not_isLtU_eq_decide ..)

/-- What the shared form answers: nothing but `pc` changes, and the condition chooses between the two
next pcs. -/
theorem exists_branch_next (s : State) (c : Bool) (imm : BitVec 12) :
    ∃ t, s.branch c (offsetB imm) = .next t ∧ onlyPc s t ∧
      (c = true → (t.pc.toNat : Int) = (s.pc.toNat + 2 * imm.toInt) % 4294967296) ∧
      (c = false → t.pc = s.pc + 4#32) := by
  cases c with
  | true =>
    exact ⟨s.setPc (s.pc + offsetB imm), rfl, onlyPc_setPc s _,
      fun _ => toNat_add_append_zero_signExtend (by decide) s.pc imm, nofun⟩
  | false => exact ⟨s.advance 4#32, rfl, onlyPc_setPc s _, nofun, fun _ => rfl⟩

/-- The match of a row of R140 holds the row's funct3 above opcode BRANCH. -/
theorem funct3Of_branch_match (f3 : BitVec 3) :
    funct3Of (0#17 ++ f3 ++ 0b000001100011#12) = f3 ∧
      opcodeOf (0#17 ++ f3 ++ 0b000001100011#12) = 0b1100011#7 := by
  revert f3; decide

/-- Settles O33: a row's word decodes to the row's instruction, and that instruction is R140's branch on the
row's comparison. -/
theorem branchesCompareAndJump : Obligations.BranchesCompareAndJump := by
  intro f3 mk cond hrow
  refine ⟨fun w hw => ?_, fun rs1 rs2 imm s => ?_⟩
  · obtain ⟨hf3, hop⟩ := funct3Of_of_match hw
    obtain ⟨hf3', hop'⟩ := funct3Of_branch_match f3
    exact decode32_of_mem_branchRows (hop.trans hop') _ hrow (hf3.trans hf3')
  · rw [exec_of_mem_branchRows rs1 rs2 imm s _ hrow]
    exact exists_branch_next s (cond (s.getX rs1) (s.getX rs2)) imm

end Sys2Proof.Proofs
end

section
/-! LB, LH, LW, LBU, LHU (43_loads.md R150 to R155). -/

namespace Sys2Proof.Proofs
open Sys2Proof.Machine

/-! ## The words -/

/-- A match of R93 with zeros above funct3 holds that funct3, and the opcode of its low 12 bits. -/
theorem funct3Of_append (f3 : BitVec 3) (low : BitVec 12) :
    funct3Of (0#17 ++ f3 ++ low) = f3 ∧ opcodeOf (0#17 ++ f3 ++ low) = low.extractLsb' 0 7 := by
  constructor
  · rw [funct3Of, BitVec.extractLsb'_append_eq_of_le (by decide),
      BitVec.extractLsb'_append_eq_of_add_le (by decide), BitVec.extractLsb'_eq_self]
  · rw [opcodeOf, BitVec.extractLsb'_append_eq_of_add_le (by decide)]

/-- Opcode LOAD (30_encoding.md R93) and the funct3 of a row select that row's instruction. -/
theorem decode32_of_mem_loadRows {w : Word} (hop : opcodeOf w = 0b0000011#7) :
    ∀ row ∈ loadRows, funct3Of w = row.1 →
      decode32 w = .ok (row.2.1 (rdOf w) (rs1Of w) (immIOf w)) := by
  have hload : decode32 w = decodeLoad w := by simp [decode32, hop]
  simp only [loadRows, List.forall_mem_cons, hload, decodeLoad]
  refine ⟨?lb, ?lh, ?lw, ?lbu, ?lhu, List.forall_mem_nil _⟩
  all_goals intro hf3; simp only [hf3]

/-! ## The shared form -/

/-- Every row runs the shared form of R150 at one of the three widths, with an extension that is the row's
own on the value of the bytes. -/
theorem exec_of_mem_loadRows (rd rs1 : RegIdx) (imm : BitVec 12) (s : State) :
    ∀ row ∈ loadRows, ∃ (n : Width) (ext : BitVec n.bits → Word),
      row.2.2.1 = n.bytes ∧ row.2.2.2 = (fun u => ext (BitVec.ofNat n.bits u)) ∧
        exec (row.2.1 rd rs1 imm) s = s.load rd (s.baseDisp rs1 (imm12 imm)) n ext 4#32 := by
  simp only [loadRows, List.forall_mem_cons]
  refine ⟨?lb, ?lh, ?lw, ?lbu, ?lhu, List.forall_mem_nil _⟩
  case lb => exact ⟨.byte, BitVec.signExtend 32, rfl, rfl, rfl⟩
  case lh => exact ⟨.half, BitVec.signExtend 32, rfl, rfl, rfl⟩
  case lw => exact ⟨.word, id, rfl, rfl, rfl⟩
  case lbu => exact ⟨.byte, BitVec.setWidth 32, rfl, rfl, rfl⟩
  case lhu => exact ⟨.half, BitVec.setWidth 32, rfl, rfl, rfl⟩

/-- What the shared form answers: alignment is checked before permission, and where both hold `rd` gets the
extended little-endian value of the bytes and `pc` moves on. -/
theorem load_next (s : State) (rd : RegIdx) (addr : Word) (n : Width) (ext : BitVec n.bits → Word)
    (ilen : Word) :
    (addr.toNat % n.bytes ≠ 0 →
      s.load rd addr n ext ilen = .next (trapped s .loadAddressMisaligned addr)) ∧
    (addr.toNat % n.bytes = 0 → ¬ permitted s .read addr n.bytes →
      s.load rd addr n ext ilen = .next (trapped s .loadAccessFault addr)) ∧
    (addr.toNat % n.bytes = 0 → permitted s .read addr n.bytes →
      ∃ t, s.load rd addr n ext ilen = .next t ∧
        onlyReg s t rd (ext (BitVec.ofNat n.bits (leValue s.mem addr n.bytes))) ∧
        t.pc = s.pc + ilen) := by
  rw [← readLE_eq_ofNat]
  rcases load_cases s rd addr n ext ilen with ⟨halign, e⟩ | ⟨halign, hperm, e⟩ | ⟨halign, hperm, e⟩
  · exact ⟨fun _ => e, fun h => absurd h halign, fun h => absurd h halign⟩
  · exact ⟨fun h => absurd halign h, fun _ _ => e, fun _ h => absurd h hperm⟩
  · exact ⟨fun h => absurd halign h, fun _ h => absurd hperm h,
      fun _ _ => ⟨_, e, onlyReg_writeReg s rd _ ilen, by simp⟩⟩

/-- Settles O34: a row's word decodes to the row's instruction, and that instruction is R150's load at the
row's width with the row's extension. -/
theorem loadsReadAndExtend : Obligations.LoadsReadAndExtend := by
  intro f3 mk n ext hrow
  refine ⟨fun w hw => ?_, ?_⟩
  · obtain ⟨hf3, hop⟩ := funct3Of_of_match hw
    obtain ⟨hf3', hop'⟩ := funct3Of_append f3 0b000000000011#12
    exact decode32_of_mem_loadRows (hop.trans hop') _ hrow (hf3.trans hf3')
  · rintro rd rs1 imm s _ rfl
    obtain ⟨width, widen, rfl, rfl, hexec⟩ := exec_of_mem_loadRows rd rs1 imm s _ hrow
    rw [hexec]
    exact load_next s rd (s.baseDisp rs1 (imm12 imm)) width widen 4#32

end Sys2Proof.Proofs
end

section
/-! SB, SH, SW (44_stores.md R160 to R163). -/

namespace Sys2Proof.Proofs
open Sys2Proof.Machine

/-! ## The words -/

/-- Opcode STORE (30_encoding.md R93) and the funct3 of a row select that row's instruction. -/
theorem decode32_of_mem_storeRows {w : Word} (hop : opcodeOf w = 0b0100011#7) :
    ∀ row ∈ storeRows, funct3Of w = row.1 →
      decode32 w = .ok (row.2.1 (rs1Of w) (rs2Of w) (immSOf w)) := by
  have hstore : decode32 w = decodeStore w := by simp [decode32, hop]
  simp only [storeRows, List.forall_mem_cons, hstore, decodeStore]
  refine ⟨?sb, ?sh, ?sw, List.forall_mem_nil _⟩
  all_goals intro hf3; simp only [hf3]

/-! ## The shared form -/

/-- Every row runs the shared form of R160 at one of the three widths, on the low bits of `rs2`. -/
theorem exec_of_mem_storeRows (rs1 rs2 : RegIdx) (imm : BitVec 12) (s : State) :
    ∀ row ∈ storeRows, ∃ n : Width, row.2.2 = n.bytes ∧
      exec (row.2.1 rs1 rs2 imm) s =
        s.store (s.baseDisp rs1 (imm12 imm)) n ((s.getX rs2).setWidth n.bits) 4#32 := by
  simp only [storeRows, List.forall_mem_cons]
  refine ⟨?sb, ?sh, ?sw, List.forall_mem_nil _⟩
  case sb => exact ⟨.byte, rfl, rfl⟩
  case sh => exact ⟨.half, rfl, rfl⟩
  case sw =>
    have hall : (s.getX rs2).setWidth Width.word.bits = s.getX rs2 := BitVec.setWidth_eq _
    exact ⟨.word, rfl, by rw [hall]; rfl⟩

/-- What the shared form answers: alignment is checked before permission, and where both hold the bytes of the
value are written and `pc` moves on. -/
theorem store_next (s : State) (addr : Word) (n : Width) (v : BitVec n.bits) (ilen : Word) :
    (addr.toNat % n.bytes ≠ 0 →
      s.store addr n v ilen = .next (trapped s .storeAddressMisaligned addr)) ∧
    (addr.toNat % n.bytes = 0 → ¬ permitted s .write addr n.bytes →
      s.store addr n v ilen = .next (trapped s .storeAccessFault addr)) ∧
    (addr.toNat % n.bytes = 0 → permitted s .write addr n.bytes →
      ∃ t, s.store addr n v ilen = .next t ∧ onlyBytes s t addr n.bytes v.toNat ∧
        t.pc = s.pc + ilen) := by
  rcases store_cases s addr n v ilen with ⟨halign, e⟩ | ⟨halign, hperm, e⟩ | ⟨halign, hperm, e⟩
  · exact ⟨fun _ => e, fun h => absurd h halign, fun h => absurd h halign⟩
  · exact ⟨fun h => absurd halign h, fun _ _ => e, fun _ h => absurd h hperm⟩
  · exact ⟨fun h => absurd halign h, fun _ h => absurd hperm h,
      fun _ _ => ⟨_, e, onlyBytes_writeLE s addr n v, rfl⟩⟩

/-- The low `n` bytes of a value do not depend on the bits above them. -/
theorem byte_of_mod {k n : Nat} (hk : k < n) (v : Nat) : v % 256 ^ n / 256 ^ k % 256 = v / 256 ^ k % 256 := by
  have hsplit : 256 ^ n = 256 ^ k * 256 ^ (n - k) := by rw [← pow_add, Nat.add_sub_cancel' hk.le]
  rw [hsplit, Nat.mod_mul_right_div_self, Nat.mod_mod_of_dvd _ (dvd_pow_self 256 (by omega))]

/-- A store of `n` bytes writes a value's low `n` bytes, whatever stands above them (R161, R162). -/
theorem onlyBytes_of_mod {s t : State} {addr : Word} {n v : Nat} (h : onlyBytes s t addr n (v % 256 ^ n)) :
    onlyBytes s t addr n v := by
  obtain ⟨hregs, hrest, hmem, hdirty⟩ := h
  refine ⟨hregs, hrest, fun a => (hmem a).trans ?_, hdirty⟩
  split
  · next hin => exact byte_of_mod hin v
  · rfl

/-- The low bits that a store of a width takes are the low bytes that it writes. -/
theorem toNat_setWidth_bits (n : Width) (v : Word) : (v.setWidth n.bits).toNat = v.toNat % 256 ^ n.bytes := by
  rw [BitVec.toNat_setWidth]
  cases n <;> rfl

/-- Settles O35: a row's word decodes to the row's instruction, and that instruction is R160's store at the
row's width of the low bytes of `rs2`. -/
theorem storesWriteTheLowBytes : Obligations.StoresWriteTheLowBytes := by
  intro f3 mk n hrow
  refine ⟨fun w hw => ?_, ?_⟩
  · obtain ⟨hf3, hop⟩ := funct3Of_of_match hw
    obtain ⟨hf3', hop'⟩ := funct3Of_append f3 0b000000100011#12
    exact decode32_of_mem_storeRows (hop.trans hop') _ hrow (hf3.trans hf3')
  · rintro rs1 rs2 imm s _ rfl
    obtain ⟨width, rfl, hexec⟩ := exec_of_mem_storeRows rs1 rs2 imm s _ hrow
    obtain ⟨hmisaligned, hfault, hwrite⟩ := store_next s (s.baseDisp rs1 (imm12 imm)) width
      ((s.getX rs2).setWidth width.bits) 4#32
    rw [hexec]
    refine ⟨toNat_baseDisp_imm12 s rs1 imm, hmisaligned, hfault, fun halign hperm => ?_⟩
    obtain ⟨t, hnext, hbytes, hpc⟩ := hwrite halign hperm
    rw [toNat_setWidth_bits] at hbytes
    exact ⟨t, hnext, onlyBytes_of_mod hbytes, hpc⟩

end Sys2Proof.Proofs
end

section
/-! ADDI, SLTI, SLTIU, XORI, ORI, ANDI, SLLI, SRLI, SRAI (45_op_imm.md R170 to R180). -/

namespace Sys2Proof.Proofs
open Sys2Proof.Machine

/-! ## The values written -/

/-- The result of a comparison is the number 1 or 0 (R172, R173). -/
theorem toNat_oneOrZero_decide (p : Prop) [Decidable p] :
    (oneOrZero (decide p)).toNat = if p then 1 else 0 := by
  by_cases h : p <;> simp [oneOrZero, h]

/-- Sign extension keeps the signed value of the immediate (R170). -/
theorem toInt_imm12 (imm : BitVec 12) : (imm12 imm).toInt = imm.toInt :=
  BitVec.toInt_signExtend_of_le (by decide)

/-- The sign-extended immediate read as an unsigned number (R173) is the signed one modulo 2^32. -/
theorem toNat_imm12 (imm : BitVec 12) : ((imm12 imm).toNat : Int) = imm.toInt % 4294967296 := by
  simpa [toInt_imm12] using toNat_add_eq_toInt 0#32 (imm12 imm)

/-- The sign-extended immediate repeats bit 11 from there upwards (R170). -/
theorem getLsbD_imm12 (imm : BitVec 12) {k : Nat} (hk : k < 32) :
    (imm12 imm).getLsbD k = imm.getLsbD (min k 11) := by
  rw [imm12, BitVec.getLsbD_signExtend]
  split
  · next hlow => simp [hk, Nat.min_eq_left (Nat.le_of_lt_succ hlow)]
  · next hhigh => simp [hk, Nat.min_eq_right (show 11 ≤ k by omega), BitVec.msb_eq_getLsbD_last]

/-- A shift that copies bit 31 in from above divides the signed value, rounding down (R180). -/
theorem toInt_sshiftRight_eq_div (a : Word) (n : Nat) : (a.sshiftRight n).toInt = a.toInt / 2 ^ n := by
  rw [BitVec.toInt_sshiftRight, Int.shiftRight_eq_div_pow]
  norm_cast

/-! ## The words -/

/-- The mask of R93's rows with funct7 shows the three function fields of the match. -/
theorem funct7Of_of_match {w m : Word} (h : w &&& 0xFE00707F#32 = m) :
    funct7Of w = funct7Of m ∧ funct3Of w = funct3Of m ∧ opcodeOf w = opcodeOf m := by
  rw [← h, and_funct7_mask, funct7Of_packR, funct3Of_packR, opcodeOf_packR]
  exact ⟨rfl, rfl, rfl⟩

/-- A match of R93 with funct7 and funct3 holds both, and the opcode of its low 12 bits. -/
theorem funct7Of_append (f7 : BitVec 7) (f3 : BitVec 3) (low : BitVec 12) :
    funct7Of (f7 ++ 0#10 ++ f3 ++ low) = f7 ∧ funct3Of (f7 ++ 0#10 ++ f3 ++ low) = f3 ∧
      opcodeOf (f7 ++ 0#10 ++ f3 ++ low) = low.extractLsb' 0 7 := by
  refine ⟨?funct7, ?funct3, ?opcode⟩
  case funct7 =>
    rw [funct7Of, BitVec.extractLsb'_append_eq_of_le (by decide),
      BitVec.extractLsb'_append_eq_of_le (by decide), BitVec.extractLsb'_append_eq_of_le (by decide),
      BitVec.extractLsb'_eq_self]
  case funct3 =>
    rw [funct3Of, BitVec.extractLsb'_append_eq_of_le (by decide),
      BitVec.extractLsb'_append_eq_of_add_le (by decide), BitVec.extractLsb'_eq_self]
  case opcode => rw [opcodeOf, BitVec.extractLsb'_append_eq_of_add_le (by decide)]

/-- Opcode OP-IMM (30_encoding.md R93) leaves the choice to funct3. -/
theorem decode32_of_opImm {w : Word} (hop : opcodeOf w = 0b0010011#7) : decode32 w = decodeOpImm w := by
  simp [decode32, hop]

/-- Under opcode OP-IMM the funct3 of a row of R170 selects that row's instruction. -/
theorem decode32_of_mem_immRows {w : Word} (hop : opcodeOf w = 0b0010011#7) :
    ∀ row ∈ immRows, funct3Of w = row.1 →
      decode32 w = .ok (row.2.1 (rdOf w) (rs1Of w) (immIOf w)) := by
  simp only [immRows, List.forall_mem_cons, decode32_of_opImm hop, decodeOpImm]
  refine ⟨?addi, ?slti, ?sltiu, ?xori, ?ori, ?andi, List.forall_mem_nil _⟩
  all_goals intro hf3; simp only [hf3]

/-- Under opcode OP-IMM a shift is selected by its funct3 and its bits 31:25 (R177). -/
theorem decode32_of_mem_shiftImmRows {w : Word} (hop : opcodeOf w = 0b0010011#7) :
    ∀ row ∈ shiftImmRows, funct7Of w = row.1 → funct3Of w = row.2.1 →
      decode32 w = .ok (row.2.2.1 (rdOf w) (rs1Of w) (shamtOf w)) := by
  simp only [shiftImmRows, List.forall_mem_cons, decode32_of_opImm hop, decodeOpImm]
  refine ⟨?slli, ?srli, ?srai, List.forall_mem_nil _⟩
  case slli => intro hf7 hf3; simp only [hf3, decodeShiftLeftImm, hf7]
  case srli | srai => intro hf7 hf3; simp only [hf3, decodeShiftRightImm, hf7]

/-! ## The instructions -/

/-- Every row of R170 writes to `rd` one value, which stands in the row's relation to `rs1` and the
immediate. -/
theorem exec_of_mem_immRows (rd rs1 : RegIdx) (imm : BitVec 12) (s : State) :
    ∀ row ∈ immRows, ∃ v, exec (row.2.1 rd rs1 imm) s = s.writeReg rd v 4#32 ∧
      row.2.2 (s.getX rs1) imm v := by
  simp only [immRows, List.forall_mem_cons]
  refine ⟨?addi, ?slti, ?sltiu, ?xori, ?ori, ?andi, List.forall_mem_nil _⟩
  case addi => exact ⟨_, rfl, toNat_baseDisp_imm12 s rs1 imm⟩
  case slti =>
    refine ⟨_, rfl, ?_⟩
    rw [isLtS_eq_decide, toNat_oneOrZero_decide, toInt_imm12]
  case sltiu =>
    refine ⟨_, rfl, ?_⟩
    simp only [isLtU_eq_decide, toNat_oneOrZero_decide, ← toNat_imm12, Int.ofNat_lt]
  case xori => exact ⟨_, rfl, fun k hk => by rw [BitVec.getLsbD_xor, getLsbD_imm12 imm hk]⟩
  case ori => exact ⟨_, rfl, fun k hk => by rw [BitVec.getLsbD_or, getLsbD_imm12 imm hk]⟩
  case andi => exact ⟨_, rfl, fun k hk => by rw [BitVec.getLsbD_and, getLsbD_imm12 imm hk]⟩

/-- Every row of R177 writes to `rd` one value, which stands in the row's relation to `rs1` and the
amount. -/
theorem exec_of_mem_shiftImmRows (rd rs1 : RegIdx) (shamt : BitVec 5) (s : State) :
    ∀ row ∈ shiftImmRows, ∃ v, exec (row.2.2.1 rd rs1 shamt) s = s.writeReg rd v 4#32 ∧
      row.2.2.2 (s.getX rs1) shamt.toNat v := by
  simp only [shiftImmRows, List.forall_mem_cons]
  refine ⟨?slli, ?srli, ?srai, List.forall_mem_nil _⟩
  case slli =>
    refine ⟨_, rfl, ?_⟩
    rw [BitVec.toNat_shiftLeft, Nat.shiftLeft_eq]
  case srli =>
    refine ⟨_, rfl, ?_⟩
    rw [BitVec.toNat_ushiftRight, Nat.shiftRight_eq_div_pow]
  case srai => exact ⟨_, rfl, toInt_sshiftRight_eq_div (s.getX rs1) shamt.toNat⟩

/-- Settles O36: a row's word decodes to the row's instruction, and that instruction writes to `rd` the value
its row describes. -/
theorem immediateArithmeticResults : Obligations.ImmediateArithmeticResults := by
  intro f3 mk rel hrow
  refine ⟨fun w hw => ?_, fun rd rs1 imm s => ?_⟩
  · obtain ⟨hf3, hop⟩ := funct3Of_of_match hw
    obtain ⟨hf3', hop'⟩ := funct3Of_append f3 0b000000010011#12
    exact decode32_of_mem_immRows (hop.trans hop') _ hrow (hf3.trans hf3')
  · obtain ⟨v, hexec, hrel⟩ := exec_of_mem_immRows rd rs1 imm s _ hrow
    rw [hexec]
    exact exists_writeReg_next s rd v 4#32 hrel

/-- Settles O37: a row's word, bits 31:25 included, decodes to the row's shift, and that shift writes to `rd`
the value its row describes. -/
theorem immediateShiftResults : Obligations.ImmediateShiftResults := by
  intro f7 f3 mk rel hrow
  refine ⟨fun w hw => ?_, fun rd rs1 shamt s => ?_⟩
  · obtain ⟨hf7, hf3, hop⟩ := funct7Of_of_match hw
    obtain ⟨hf7', hf3', hop'⟩ := funct7Of_append f7 f3 0b000000010011#12
    exact decode32_of_mem_shiftImmRows (hop.trans hop') _ hrow (hf7.trans hf7') (hf3.trans hf3')
  · obtain ⟨v, hexec, hrel⟩ := exec_of_mem_shiftImmRows rd rs1 shamt s _ hrow
    rw [hexec]
    exact exists_writeReg_next s rd v 4#32 hrel

end Sys2Proof.Proofs
end

section
/-! ADD, SUB, SLL, SLT, SLTU, XOR, SRL, SRA, OR, AND (46_op.md R190 to R200). -/

namespace Sys2Proof.Proofs
open Sys2Proof.Machine

/-! ## The values written -/

/-- Subtraction modulo 2^32 is the integer difference modulo 2^32 (R192). -/
theorem toNat_sub_eq_emod (a b : Word) :
    ((a - b).toNat : Int) = (a.toNat - b.toNat : Int) % 4294967296 := by
  rw [BitVec.toNat_sub]
  omega

/-- Only the low five bits of `rs2` count in a shift (R193). -/
theorem toNat_shiftAmount (b : Word) : (shiftAmount b).toNat = b.toNat % 32 := by
  simp [shiftAmount]

/-! ## The words -/

/-- Opcode OP (30_encoding.md R93) leaves the choice to funct7 and funct3. -/
theorem decode32_of_op {w : Word} (hop : opcodeOf w = 0b0110011#7) : decode32 w = decodeOp w := by
  simp [decode32, hop]

/-- Under opcode OP the funct7 and the funct3 of a row of R190 select that row's instruction. -/
theorem decode32_of_mem_opRows {w : Word} (hop : opcodeOf w = 0b0110011#7) :
    ∀ row ∈ opRows, funct7Of w = row.1 → funct3Of w = row.2.1 →
      decode32 w = .ok (row.2.2.1 (rdOf w) (rs1Of w) (rs2Of w)) := by
  simp only [opRows, List.forall_mem_cons, decode32_of_op hop, decodeOp]
  refine ⟨?add, ?sub, ?sll, ?slt, ?sltu, ?xor, ?srl, ?sra, ?or, ?and, List.forall_mem_nil _⟩
  all_goals intro hf7 hf3; simp only [hf7, hf3]

/-! ## The instructions -/

/-- Every row of R190 writes to `rd` one value, which stands in the row's relation to `rs1` and `rs2`. -/
theorem exec_of_mem_opRows (rd rs1 rs2 : RegIdx) (s : State) :
    ∀ row ∈ opRows, ∃ v, exec (row.2.2.1 rd rs1 rs2) s = s.writeReg rd v 4#32 ∧
      row.2.2.2 (s.getX rs1) (s.getX rs2) v := by
  simp only [opRows, List.forall_mem_cons]
  refine ⟨?add, ?sub, ?sll, ?slt, ?sltu, ?xor, ?srl, ?sra, ?or, ?and, List.forall_mem_nil _⟩
  case add => exact ⟨_, rfl, BitVec.toNat_add _ _⟩
  case sub => exact ⟨_, rfl, toNat_sub_eq_emod _ _⟩
  case sll =>
    refine ⟨_, rfl, ?_⟩
    rw [BitVec.toNat_shiftLeft, Nat.shiftLeft_eq, toNat_shiftAmount]
  case slt =>
    refine ⟨_, rfl, ?_⟩
    rw [isLtS_eq_decide, toNat_oneOrZero_decide]
  case sltu =>
    refine ⟨_, rfl, ?_⟩
    rw [isLtU_eq_decide, toNat_oneOrZero_decide]
  case xor => exact ⟨_, rfl, fun _ _ => BitVec.getLsbD_xor⟩
  case srl =>
    refine ⟨_, rfl, ?_⟩
    rw [BitVec.toNat_ushiftRight, Nat.shiftRight_eq_div_pow, toNat_shiftAmount]
  case sra =>
    refine ⟨_, rfl, ?_⟩
    rw [toInt_sshiftRight_eq_div, toNat_shiftAmount]
  case or => exact ⟨_, rfl, fun _ _ => BitVec.getLsbD_or⟩
  case and => exact ⟨_, rfl, fun _ _ => BitVec.getLsbD_and⟩

/-- Settles O38: a row's word, funct7 included, decodes to the row's instruction, and that instruction writes
to `rd` the value its row describes. -/
theorem registerOperationResults : Obligations.RegisterOperationResults := by
  intro f7 f3 mk rel hrow
  refine ⟨fun w hw => ?_, fun rd rs1 rs2 s => ?_⟩
  · obtain ⟨hf7, hf3, hop⟩ := funct7Of_of_match hw
    obtain ⟨hf7', hf3', hop'⟩ := funct7Of_append f7 f3 0b000000110011#12
    exact decode32_of_mem_opRows (hop.trans hop') _ hrow (hf7.trans hf7') (hf3.trans hf3')
  · obtain ⟨v, hexec, hrel⟩ := exec_of_mem_opRows rd rs1 rs2 s _ hrow
    rw [hexec]
    exact exists_writeReg_next s rd v 4#32 hrel

end Sys2Proof.Proofs
end

section
/-! FENCE, ECALL, EBREAK (47_fence_system.md R210 to R213). -/

namespace Sys2Proof.Proofs
open Sys2Proof.Machine

/-! ## The words -/

/-- A word decodes to an instruction exactly when it is that instruction's encoding (30_encoding.md R71, R93). -/
theorem decode32_eq_ok_iff {i : Instr} {w : Word} : decode32 w = .ok i ↔ encode i = .word w :=
  ⟨encode_of_decode32, decode32_encode⟩

/-- FENCE's match leaves its five fields free: every word that holds it is the encoding of a FENCE with the
fields of the word (R210). -/
theorem encode_fence_of_match {w : Word} (h : w &&& 0x0000707F#32 = 0x0000000F#32) :
    encode (.fence (w.extractLsb' 28 4) (w.extractLsb' 24 4) (w.extractLsb' 20 4) (rs1Of w) (rdOf w)) =
      .word w := by
  obtain ⟨hf3, hop⟩ := funct3Of_of_match h
  exact congrArg InstWord.word (packFence_eq hf3 hop)

/-- An instruction with a single encoding is decoded from that word and from no other (R211, R212). -/
theorem decode32_eq_ok_iff_eq {i : Instr} {v : Word} (hv : encode i = .word v) (w : Word) :
    decode32 w = .ok i ↔ w = v := by
  rw [decode32_eq_ok_iff, hv, InstWord.word.injEq]
  exact eq_comm

/-! ## The instructions -/

/-- Settles O39: a word with FENCE's match is the encoding of a FENCE, and FENCE only advances `pc`. -/
theorem fenceOnlyAdvances : Obligations.FenceOnlyAdvances := by
  refine ⟨fun w hw => ?decodes, fun fm pred succ rs1 rd s => ?advances⟩
  case decodes => exact decode32_eq_ok_iff.2 (encode_fence_of_match hw)
  case advances => exact ⟨s.advance 4#32, rfl, onlyPc_setPc s _, rfl⟩

/-- Settles O40: each of the two instructions has one encoding, and each raises its exception at its own
address. -/
theorem ecallAndEbreakTrap : Obligations.EcallAndEbreakTrap := by
  refine ⟨?ecallWord, ?ebreakWord, fun s => ⟨?ecallTraps, ?ebreakTraps⟩⟩
  case ecallWord => exact decode32_eq_ok_iff_eq rfl
  case ebreakWord => exact decode32_eq_ok_iff_eq rfl
  case ecallTraps | ebreakTraps => rfl

end Sys2Proof.Proofs
end

section
/-! C.ADDI4SPN, C.LW, C.SW, C.NOP, C.ADDI, C.LI, C.JAL and the two entries that are not instructions
(48_compressed.md R222 to R230). -/

namespace Sys2Proof.Proofs
open Sys2Proof.Machine

/-! ## The parcels -/

/-- A parcel decodes to an instruction exactly when that instruction is well-formed and the parcel is its
encoding (30_encoding.md R71, R94). -/
theorem decode16_eq_ok_iff {i : Instr} {h : Parcel} :
    decode16 h = .ok i ↔ i.wellFormed = true ∧ encode i = .parcel h :=
  ⟨encode_of_decode16, fun ⟨hwf, he⟩ => decode16_encode hwf he⟩

/-- A parcel with the pattern of a row is that row's instruction when its constraint holds and the fixed bits of
the pattern make up the parcel together with the fields (R94). -/
theorem decode16_of_match {i : Instr} {h m p : Parcel} (hm : h &&& 0xE003#16 = m)
    (hwf : i.wellFormed = true) (he : encode i = .parcel p)
    (hp : h.extractLsb' 13 3 = m.extractLsb' 13 3 → h.extractLsb' 0 2 = m.extractLsb' 0 2 → p = h) :
    decode16 h = .ok i := by
  obtain ⟨h3, hop⟩ := high_low_of_match hm
  exact decode16_eq_ok_iff.2 ⟨hwf, he.trans (congrArg _ (hp h3 hop))⟩

/-- An entry with a single encoding is decoded from that parcel and from no other (R222, R227). -/
theorem decode16_eq_ok_iff_eq {i : Instr} {v : Parcel} (hwf : i.wellFormed = true)
    (hv : encode i = .parcel v) (h : Parcel) : decode16 h = .ok i ↔ h = v := by
  rw [decode16_eq_ok_iff, and_iff_right hwf, hv, InstWord.parcel.injEq]
  exact eq_comm

/-- The mask of C.ADDI4SPN's constraint keeps bits 12:5 (R224). -/
theorem extract_and_nzuimm_mask (h : Parcel) :
    (h &&& 0x1FE0#16).extractLsb' 5 8 = h.extractLsb' 5 8 := by
  refine ext_bits fun i hi => ?_
  simp only [BitVec.getLsbD_extractLsb', BitVec.getLsbD_and]
  interval_cases i <;> simp

/-- The bits of C.ADDI4SPN's immediate are bits 12:5 in another order: where one of these is set, the immediate
is not zero (R224). -/
theorem immCIWOf_ne_zero {h : Parcel} (hnz : h.extractLsb' 5 8 ≠ 0#8) : immCIWOf h ≠ 0#8 := by
  intro himm
  rw [← extract_and_nzuimm_mask, and_nzuimm_eq_zero_iff.2 himm] at hnz
  exact hnz rfl

/-! ## The operands -/

/-- A primed field names one of x8 to x15 (30_encoding.md R90). -/
theorem cReg_eq_ofNat (r : CRegIdx) : cReg r = BitVec.ofNat 5 (8 + r.toNat) := by
  rw [cReg, BitVec.ofNat_add, BitVec.ofNat_toNat]

/-- A field stored without its two low zeros stands for four times what is stored (R87, R88). -/
theorem append_zeros_setWidth {n : Nat} (x : BitVec n) :
    (x ++ 0#2).setWidth 32 = BitVec.ofNat 32 (4 * x.toNat) := by
  have happend : (x ++ 0#2).toNat = x.toNat <<< 2 ||| (0#2).toNat := BitVec.toNat_append x 0#2
  apply BitVec.eq_of_toNat_eq
  simp [happend, Nat.shiftLeft_eq, Nat.mul_comm]

/-- The immediate of R89 is the signed value of its six bits. -/
theorem toInt_immCI (imm : BitVec 6) : (immCI imm).toInt = imm.toInt :=
  BitVec.toInt_signExtend_of_le (by decide)

/-- The address of C.LW and C.SW in the terms of R225 and R226. -/
theorem baseDisp_cReg_immCL (s : State) (r : CRegIdx) (uimm : BitVec 5) :
    s.baseDisp (cReg r) (immCL uimm) =
      s.baseDisp (BitVec.ofNat 5 (8 + r.toNat)) (BitVec.ofNat 32 (4 * uimm.toNat)) := by
  rw [cReg_eq_ofNat, immCL, append_zeros_setWidth]

/-! ## The instructions -/

/-- Settles O41: a parcel of the row with its constraint is the encoding of the row, and the sum is written to
the register that the primed field names. -/
theorem cAddi4spnAddsToX2 : Obligations.CAddi4spnAddsToX2 := by
  refine ⟨fun h hm hnz => ?decodes, fun rd nzuimm s => ?adds⟩
  case decodes => exact decode16_of_match hm (decide_eq_true (immCIWOf_ne_zero hnz)) rfl packCIW_eq
  case adds =>
    rw [← cReg_eq_ofNat]
    refine exists_writeReg_next s (cReg rd) (s.getX 2#5 + immCIW nzuimm) 2#32 ?_
    rw [immCIW, append_zeros_setWidth, toNat_add_ofNat]

/-- Settles O42: C.LW is the shared form of the loads at its own address and length. -/
theorem cLwReadsAWord : Obligations.CLwReadsAWord := by
  refine ⟨fun h hm => ?decodes, ?loads⟩
  case decodes => exact decode16_of_match hm rfl rfl packCL_eq
  case loads =>
    rintro rd rs1 uimm s _ rfl
    have hload : exec (.cLw rd rs1 uimm) s =
        s.load (cReg rd) (s.baseDisp (cReg rs1) (immCL uimm)) .word id 2#32 := rfl
    rw [hload, baseDisp_cReg_immCL, cReg_eq_ofNat]
    obtain ⟨hmisaligned, hfault, hread⟩ := load_next s (BitVec.ofNat 5 (8 + rd.toNat))
      (s.baseDisp (BitVec.ofNat 5 (8 + rs1.toNat)) (BitVec.ofNat 32 (4 * uimm.toNat))) .word id 2#32
    refine ⟨hmisaligned, hfault, fun halign hperm => ?_⟩
    obtain ⟨t, hnext, hreg, hpc⟩ := hread halign hperm
    refine ⟨t, _, hnext, hreg, ?_, hpc⟩
    rw [id, ← readLE_eq_ofNat, toNat_readLE]
    rfl

/-- Settles O43: C.SW is the shared form of the stores at its own address and length. -/
theorem cSwWritesAWord : Obligations.CSwWritesAWord := by
  refine ⟨fun h hm => ?decodes, ?stores⟩
  case decodes => exact decode16_of_match hm rfl rfl packCL_eq
  case stores =>
    rintro rs1 rs2 uimm s _ rfl
    have hstore : exec (.cSw rs1 rs2 uimm) s =
        s.store (s.baseDisp (cReg rs1) (immCL uimm)) .word (s.getX (cReg rs2)) 2#32 := rfl
    rw [hstore, baseDisp_cReg_immCL, cReg_eq_ofNat]
    exact ⟨toNat_add_ofNat _ _, store_next s _ .word _ 2#32⟩

/-- Settles O44: C.NOP has one encoding; C.ADDI and C.LI have those of their pattern that meet the constraint,
and each writes one value. -/
theorem cNopCAddiCLiResults : Obligations.CNopCAddiCLiResults := by
  refine ⟨?nopParcel, fun h hm hrd hnz => ?addiParcel, fun h hm hrd => ?liParcel,
    fun rd imm s => ⟨?nop, ?addi, ?li⟩⟩
  case nopParcel => exact decode16_eq_ok_iff_eq rfl rfl
  case addiParcel =>
    exact decode16_of_match hm (by simp [Instr.wellFormed, hrd, hnz]) rfl packCI_eq
  case liParcel => exact decode16_of_match hm (decide_eq_true hrd) rfl packCI_eq
  case nop => exact ⟨s.advance 2#32, rfl, onlyPc_setPc s _, rfl⟩
  case addi =>
    refine exists_writeReg_next s rd (s.getX rd + immCI imm) 2#32 ?_
    rw [toNat_add_eq_toInt, toInt_immCI]
  case li => exact exists_writeReg_next s rd (immCI imm) 2#32 (toInt_immCI imm)

/-- Settles O45: the pattern alone decides the row, and the target is `pc` plus twice the stored offset. -/
theorem cJalLinksPcPlusTwo : Obligations.CJalLinksPcPlusTwo := by
  refine ⟨fun h hm => ?decodes, fun imm s => ?jumps⟩
  case decodes => exact decode16_of_match hm rfl rfl packCJ_eq
  case jumps =>
    exact ⟨_, rfl, onlyReg_linkAndJump s 1#5 (s.pc + 2#32) (s.pc + offsetCJ imm),
      toNat_add_append_zero_signExtend (by decide) s.pc imm⟩

/-- Settles O46: the all-zero parcel is one encoding, the Reserved parcels are the pattern around any eleven
bits, and both entries raise with the parcel they stand for. -/
theorem illegalAndReservedTrap : Obligations.IllegalAndReservedTrap := by
  refine ⟨?zeroParcel, fun h hm => ?reservedParcel, fun bits s => ?reservedTraps, fun s => ?zeroTraps⟩
  case zeroParcel => exact decode16_eq_ok_iff_eq rfl rfl
  case reservedParcel =>
    have hpack : packReserved (h.extractLsb' 2 11) = h :=
      packReserved_fields h (high_low_of_match hm).1 (high_low_of_match hm).2
    exact ⟨decode16_of_match hm rfl rfl fun _ _ => hpack, hpack⟩
  case reservedTraps | zeroTraps => rfl

end Sys2Proof.Proofs
end

section
/-! Taking an exception: what each one is raised by, what it leaves unchanged, and the end of a run
(60_exceptions.md R250 to R265). -/

namespace Sys2Proof.Proofs
open Sys2Proof.Machine

/-! ## The exceptions of an instruction (60_exceptions.md R250) -/

/-- The exceptions that R250 lets an instruction raise, each with the value it carries. -/
inductive InstrRaises (i : Instr) (s : State) : Trap → Prop
  | illegal (hi : i = .cIllegal ∨ ∃ b, i = .cReserved b) :
      InstrRaises i s ⟨.illegalInstruction, instValue (encode i)⟩
  | breakpoint (hi : i = .ebreak) : InstrRaises i s ⟨.breakpoint, s.pc⟩
  | loadMisaligned {addr : Word} (haddr : effectiveAddress i s = some addr)
      (hi : i.mnemonic ∈ ["LH", "LHU", "LW", "C.LW"]) :
      InstrRaises i s ⟨.loadAddressMisaligned, addr⟩
  | loadFault {addr : Word} (haddr : effectiveAddress i s = some addr)
      (hi : i.mnemonic ∈ ["LB", "LH", "LW", "LBU", "LHU", "C.LW"]) :
      InstrRaises i s ⟨.loadAccessFault, addr⟩
  | storeMisaligned {addr : Word} (haddr : effectiveAddress i s = some addr)
      (hi : i.mnemonic ∈ ["SH", "SW", "C.SW"]) : InstrRaises i s ⟨.storeAddressMisaligned, addr⟩
  | storeFault {addr : Word} (haddr : effectiveAddress i s = some addr)
      (hi : i.mnemonic ∈ ["SB", "SH", "SW", "C.SW"]) : InstrRaises i s ⟨.storeAccessFault, addr⟩
  | environmentCall (hi : i = .ecall) : InstrRaises i s ⟨.environmentCall, 0#32⟩

/-- A next state is reached without an exception, or by taking one of those that `P` allows. -/
def RunsOrRaises (P : Trap → Prop) (s t : State) : Prop :=
  t.halt = s.halt ∨ ∃ e, P e ∧ t = s.raise e

theorem RunsOrRaises.mono {P Q : Trap → Prop} {s t : State} (hPQ : ∀ e, P e → Q e)
    (h : RunsOrRaises P s t) : RunsOrRaises Q s t :=
  h.imp_right fun ⟨e, he, ht⟩ => ⟨e, hPQ e he, ht⟩

section Shapes
variable {i : Instr} {s t : State} {rd : RegIdx} {addr ilen : Word} {n : Width}

/-- A byte is always aligned, so that a load of a byte can only fault (20_memory.md R44). -/
theorem runsOrRaises_load {ext : BitVec n.bits → Word} (haddr : effectiveAddress i s = some addr)
    (hmisaligned : n.bytes ≠ 1 → i.mnemonic ∈ ["LH", "LHU", "LW", "C.LW"])
    (hfault : i.mnemonic ∈ ["LB", "LH", "LW", "LBU", "LHU", "C.LW"])
    (h : s.load rd addr n ext ilen = .next t) : RunsOrRaises (InstrRaises i s) s t := by
  rcases load_cases s rd addr n ext ilen with ⟨halign, e⟩ | ⟨-, -, e⟩ | ⟨-, -, e⟩ <;> rw [e] at h <;>
    cases h
  · have hwide : n.bytes ≠ 1 := fun h1 => halign (by rw [h1, Nat.mod_one])
    exact .inr ⟨_, .loadMisaligned haddr (hmisaligned hwide), rfl⟩
  · exact .inr ⟨_, .loadFault haddr hfault, rfl⟩
  · exact .inl (setX_halt ..)

/-- A byte is always aligned, so that a store of a byte can only fault (20_memory.md R45). -/
theorem runsOrRaises_store {v : BitVec n.bits} (haddr : effectiveAddress i s = some addr)
    (hmisaligned : n.bytes ≠ 1 → i.mnemonic ∈ ["SH", "SW", "C.SW"])
    (hfault : i.mnemonic ∈ ["SB", "SH", "SW", "C.SW"])
    (h : s.store addr n v ilen = .next t) : RunsOrRaises (InstrRaises i s) s t := by
  rcases store_cases s addr n v ilen with ⟨halign, e⟩ | ⟨-, -, e⟩ | ⟨-, -, e⟩ <;> rw [e] at h <;> cases h
  · have hwide : n.bytes ≠ 1 := fun h1 => halign (by rw [h1, Nat.mod_one])
    exact .inr ⟨_, .storeMisaligned haddr (hmisaligned hwide), rfl⟩
  · exact .inr ⟨_, .storeFault haddr hfault, rfl⟩
  · exact .inl rfl

theorem runsOrRaises_branch {P : Trap → Prop} {c : Bool} {offset : Word}
    (h : s.branch c offset = .next t) : RunsOrRaises P s t := by
  cases h
  cases c <;> exact .inl rfl

end Shapes

/-- Every row's meaning is one of the shapes, with the exceptions that R250 lists for the row. -/
theorem runsOrRaises_exec {i : Instr} {s t : State} (h : exec i s = .next t) :
    RunsOrRaises (InstrRaises i s) s t := by
  cases i with
  | lui | auipc | addi | slti | sltiu | xori | ori | andi | slli | srli | srai | add | sub | sll | slt
  | sltu | xor | srl | sra | or | and | cAddi4spn | cAddi | cLi | jal | jalr | cJal =>
    cases h; exact .inl (setX_halt ..)
  | beq | bne | blt | bge | bltu | bgeu => exact runsOrRaises_branch h
  | lb | lbu => exact runsOrRaises_load rfl (fun hwide => absurd rfl hwide) (by simp [Instr.mnemonic]) h
  | lh | lw | lhu | cLw =>
    exact runsOrRaises_load rfl (fun _ => by simp [Instr.mnemonic]) (by simp [Instr.mnemonic]) h
  | sb => exact runsOrRaises_store rfl (fun hwide => absurd rfl hwide) (by simp [Instr.mnemonic]) h
  | sh | sw | cSw =>
    exact runsOrRaises_store rfl (fun _ => by simp [Instr.mnemonic]) (by simp [Instr.mnemonic]) h
  | fence | cNop => cases h; exact .inl rfl
  | ecall => cases h; exact .inr ⟨_, .environmentCall rfl, rfl⟩
  | ebreak => cases h; exact .inr ⟨_, .breakpoint rfl, rfl⟩
  | cIllegal => cases h; exact .inr ⟨_, .illegal (.inl rfl), rfl⟩
  | cReserved b => cases h; exact .inr ⟨_, .illegal (.inr ⟨b, rfl⟩), rfl⟩

/-! ## The exceptions of a step -/

/-- A step can raise at the fetch (R252), in the decoder (R253), or in the instruction it runs. -/
inductive StepRaises (s : State) : Trap → Prop
  | fetch (hf : s.fetch = .noPermission) : StepRaises s ⟨.instructionAccessFault, s.pc⟩
  | decode {iw : InstWord} {r : Reject} (hf : s.fetch = .got iw) (hd : decode iw = .error r) :
      StepRaises s ⟨.illegalInstruction, instValue iw⟩
  | exec {i : Instr} {e : Trap} (hi : current s i) (he : InstrRaises i s e) : StepRaises s e

/-- A step that answers a next state leaves the hart running, or takes one of these exceptions. -/
theorem runsOrRaises_step {s t : State} (h : step s = .next t) : RunsOrRaises (StepRaises s) s t := by
  have hs := (step_next h).1
  rcases step_cases s hs with ⟨hf, e⟩ | ⟨-, e⟩ | ⟨iw, r, hf, hd, e⟩ | ⟨iw, i, hf, hd, e⟩ <;> rw [e] at h
  · cases h; exact .inr ⟨_, .fetch hf, rfl⟩
  · cases h
  · cases h; exact .inr ⟨_, .decode hf hd, rfl⟩
  · exact (runsOrRaises_exec h).mono fun _ => .exec ⟨iw, hf, hd⟩

/-- A step that halts the hart has taken one of these exceptions, and the record shows which. -/
theorem stepRaises_of_halted {s t : State} {c : Cause} {epc v : Word} (h : step s = .next t)
    (ht : t.halt = .halted c epc v) : StepRaises s ⟨c, v⟩ := by
  rcases runsOrRaises_step h with hsame | ⟨e, he, rfl⟩
  · rw [ht, (step_next h).1] at hsame; cases hsame
  · cases ht; exact he

/-- Settles O20: a step that halts has taken an exception, which writes the halt record only; and a halted hart
takes no step. -/
theorem trapChangesOnlyHalt : Obligations.TrapChangesOnlyHalt := by
  intro s t hs h ht
  rcases runsOrRaises_step h with hsame | ⟨e, -, rfl⟩
  · exact absurd (hsame.trans hs) ht
  · refine ⟨e.cause, e.tval, rfl, fun u hu => ?_⟩
    rw [step_halted _ (raise_halt s e)] at hu
    cases hu

/-- The bits that were fetched are the encoding of the instruction they decode to (30_encoding.md R71). -/
theorem encode_of_current {s : State} {i : Instr} (hi : current s i) :
    s.fetch = .got (encode i) ∧ decode (encode i) = .ok i := by
  obtain ⟨iw, hf, hd⟩ := hi
  obtain ⟨-, rfl⟩ := encodeInvertsDecode iw i hd
  exact ⟨hf, hd⟩

/-- Settles O21: the exceptions of a step are those of `StepRaises`, and R250's table is read off them. -/
theorem eachExceptionHasItsSource : Obligations.EachExceptionHasItsSource := by
  refine ⟨rfl, fun s t c epc v h ht => ?_⟩
  cases stepRaises_of_halted h ht with
  | fetch hf => exact ⟨hf, rfl⟩
  | decode hf hd => exact ⟨_, hf, rfl, .inl ⟨_, hd⟩⟩
  | exec hi he =>
    cases he with
    | illegal hillegal =>
      obtain ⟨hf, hd⟩ := encode_of_current hi
      refine ⟨_, hf, rfl, .inr ?_⟩
      rcases hillegal with rfl | ⟨b, rfl⟩
      · exact .inl hd
      · exact .inr ⟨b, hd⟩
    | breakpoint hebreak => exact ⟨hebreak ▸ hi, rfl⟩
    | loadMisaligned haddr hrow | loadFault haddr hrow | storeMisaligned haddr hrow
    | storeFault haddr hrow => exact ⟨_, hi, haddr, hrow⟩
    | environmentCall hecall => exact ⟨hecall ▸ hi, rfl⟩

/-! ## The even pc (60_exceptions.md R251) -/

/-- Every state of a run that starts in a good state is good. -/
theorem inv_of_reaches {s t : State} (hs : Inv s) (h : Reaches s t) : Inv t := by
  induction h with
  | refl => exact hs
  | step _ hstep ih => exact stepKeepsGoodStates _ _ ih hstep

/-- A fetch from four executable and clean bytes delivers bits, whatever the address (R251). -/
theorem exists_fetch_of_clean {s : State} (hp : permitted s .execute s.pc 4) (hd : ¬ anyDirty s s.pc 4) :
    ∃ iw, s.fetch = .got iw := by
  have hp1 : permitted s .execute s.pc 2 := by simpa using permitted_sub 0 (by decide) hp
  have hd1 : ¬ anyDirty s s.pc 2 := by simpa using not_anyDirty_sub 0 (by decide) hd
  by_cases hl : leValue s.mem s.pc 2 % 4 = 3
  · exact ⟨_, fetch_of_clean_long hp1 hd1 hl (permitted_sub 2 (by decide) hp)
      (not_anyDirty_sub 2 (by decide) hd)⟩
  · exact ⟨_, fetch_of_clean_short hp1 hd1 hl⟩

/-- Settles O22: code 0 has no source, an even `pc` is part of what every step keeps, and a fetch examines
permission and `dirty` only. -/
theorem instructionAddressIsNeverMisaligned : Obligations.InstructionAddressIsNeverMisaligned :=
  ⟨fun s t epc v h => eachExceptionHasItsSource.2 s t _ epc v h,
    fun _ _ hp h => (inv_of_reaches (inv_boot hp) h).pc_even,
    fun _ => exists_fetch_of_clean⟩

/-! ## Bits that are no instruction (60_exceptions.md R253) -/

theorem step_of_decode_error {s : State} {iw : InstWord} {r : Reject} (hs : s.halt = .running)
    (hf : s.fetch = .got iw) (hd : decode iw = .error r) :
    step s = .next (trapped s .illegalInstruction (instValue iw)) := by
  simp [step, hs, State.stepWith, hf, State.decodeFetched, hd, State.raise, trapped]

/-- The two entries that are not instructions raise with the bits they were fetched as. -/
theorem exec_of_illegal {i : Instr} (hi : i = .cIllegal ∨ ∃ b, i = .cReserved b) (s : State) :
    exec i s = .next (trapped s .illegalInstruction (instValue (encode i))) := by
  rcases hi with rfl | ⟨b, rfl⟩ <;> rfl

theorem step_of_illegal {s : State} {iw : InstWord} {i : Instr} (hs : s.halt = .running)
    (hf : s.fetch = .got iw) (hd : decode iw = .ok i) (hi : i = .cIllegal ∨ ∃ b, i = .cReserved b) :
    step s = .next (trapped s .illegalInstruction (instValue iw)) := by
  obtain ⟨-, rfl⟩ := encodeInvertsDecode iw i hd
  rw [step_of_current hs ⟨_, hf, hd⟩, exec_of_illegal hi]

/-- Settles O23: rejected bits raise in the decoder, and the two entries that are not instructions in their own
meaning, each with the fetched bits. -/
theorem unadmittedBitsRaiseIllegal : Obligations.UnadmittedBitsRaiseIllegal := by
  intro s iw hs hf hbits
  have hstep : step s = .next (trapped s .illegalInstruction (instValue iw)) := by
    rcases hbits with ⟨r, hd⟩ | hd | ⟨b, hd⟩
    · exact step_of_decode_error hs hf hd
    · exact step_of_illegal hs hf hd (.inl rfl)
    · exact step_of_illegal hs hf hd (.inr ⟨b, rfl⟩)
  cases iw <;> exact hstep

/-! ## The end of a run, the mode and the map (60_exceptions.md R263, R265) -/

/-- Settles O24: EnvironmentCall has ECALL as its only source, and ECALL always raises it. -/
theorem normalEndIsEcall : Obligations.NormalEndIsEcall := by
  refine fun s t h => ⟨fun ⟨epc, v, ht⟩ => ?onlyEcall, fun hecall => ?ecallEnds⟩
  case onlyEcall => exact (eachExceptionHasItsSource.2 s t _ epc v h ht).1
  case ecallEnds =>
    rw [step_of_current (step_next h).1 hecall] at h
    cases h
    exact ⟨s.pc, 0#32, rfl⟩

/-- Settles O29: neither an exception nor an instruction writes the mode or the map. -/
theorem noStepChangesModeOrMap : Obligations.NoStepChangesModeOrMap := by
  intro s t h
  obtain ⟨-, ⟨e, -, rfl⟩ | ⟨i, -, h⟩⟩ := step_next h
  · exact ⟨rfl, rfl⟩
  · exact (Effect.of_exec h).mapMode.symm

end Sys2Proof.Proofs
end

section
/-! The instruction that `withFetchWord` places at `pc` (70_reset_and_hazards.md R292, log entry 8), and some
known words (95_test_vectors.md Part 2). -/

namespace Sys2Proof.Proofs
open Sys2Proof.Machine

/-! ## The placed word -/

section Placed
variable (s : State) (w : Word)

/-- The map is the one of before where that lets the bytes be fetched, and the default map where not. -/
theorem placeWord_permitted : permitted (s.placeWord w) .execute s.pc 4 := by
  rw [← mapAllowsAll_iff_permitted]
  show mapAllowsAll (if _ then _ else _) _ _ _ = true
  split
  · next hallowed => exact hallowed
  · exact (mapAllowsAll_iff ..).2 fun j _ => (mapAllows_iff_mapGrants ..).2 (mapGrants_default _ _)

theorem placeWord_clean : ¬ anyDirty (s.placeWord w) s.pc 4 := by
  rintro ⟨j, hj, hd⟩
  have hin : (s.pc + BitVec.ofNat 32 j).toNat ∈ (touched s.pc 4).map BitVec.toNat :=
    List.mem_map_of_mem (List.mem_map_of_mem (List.mem_range.2 hj))
  have hout := (List.mem_filter.1 hd).2
  rw [List.contains_iff_mem.2 hin] at hout
  cases hout

/-- The four bytes at `pc` are those of the word, the less significant ones first (20_memory.md R43). -/
theorem placeWord_bytes :
    [(s.placeWord w).mem.byteAt s.pc, (s.placeWord w).mem.byteAt (s.pc + 1#32),
      (s.placeWord w).mem.byteAt (s.pc + 2#32), (s.placeWord w).mem.byteAt (s.pc + 3#32)] =
      bytesOfWord w := by
  have hbyte : ∀ k < 4, (s.placeWord w).mem.byteAt (s.pc + BitVec.ofNat 32 k) = w.extractLsb' (8 * k) 8 :=
    fun k hk => byteAt_writeLE_inside s.mem s.pc .word w hk
  have hfirst : (s.placeWord w).mem.byteAt s.pc = w.extractLsb' 0 8 := by simpa using hbyte 0 (by decide)
  rw [hfirst, hbyte 1 (by decide), hbyte 2 (by decide), hbyte 3 (by decide)]
  rfl

/-- The next step runs an instruction whose bytes the placed word begins with. -/
theorem step_placeWord {i : Instr} {rest : List Byte} (hwf : i.wellFormed = true)
    (hbytes : bytesOfWord w = encodeBytes i ++ rest) : step (s.placeWord w) = exec i (s.placeWord w) := by
  refine stepRunsTheDecodedInstruction (s.placeWord w) i rest rfl hwf ?decodes ?executable ?clean
  case decodes =>
    refine Eq.trans (congrArg decodeBytes ?_) (decodeInvertsEncode i rest hwf)
    exact (placeWord_bytes s w).trans hbytes
  case executable =>
    exact fun j hj => placeWord_permitted s w j (by omega)
  case clean =>
    exact fun ⟨j, hj, hd⟩ => placeWord_clean s w ⟨j, by omega, hd⟩

end Placed

/-- The bits of an encoding, read as a number of their width, are the encoding zero-extended. -/
theorem ofNat_toNat_mod {n : Nat} (b : BitVec n) : BitVec.ofNat 32 (b.toNat % 2 ^ n) = b.setWidth 32 := by
  rw [Nat.mod_eq_of_lt b.isLt, BitVec.ofNat_toNat]

/-- A zero-extended parcel begins with the bytes of the parcel. -/
theorem bytesOfWord_setWidth (h : Parcel) :
    ∃ rest, bytesOfWord (h.setWidth 32) = (InstWord.parcel h).bytes ++ rest := by
  have hbyte : ∀ k, k + 8 ≤ 32 → (h.setWidth 32).extractLsb' k 8 = h.extractLsb' k 8 := fun k hk =>
    BitVec.extractLsb'_setWidth_of_le hk
  rw [bytesOfWord, hbyte 0 (by decide), hbyte 8 (by decide)]
  exact ⟨_, rfl⟩

/-- Settles O18: for either length the placed bytes are executable, clean, and begin with the encoding. -/
theorem placedInstructionRunsNext : Obligations.PlacedInstructionRunsNext := by
  refine fun s i hwf => ⟨fun w he => ?word, fun h he => ?parcel⟩
  case word =>
    refine step_placeWord s _ (rest := []) hwf ?_
    rw [ofNat_toNat_mod, BitVec.setWidth_eq, encodeBytes, he, List.append_nil]
    rfl
  case parcel =>
    obtain ⟨rest, hbytes⟩ := bytesOfWord_setWidth h
    refine step_placeWord s _ (rest := rest) hwf ?_
    rw [ofNat_toNat_mod, encodeBytes, he, hbytes]

/-! ## Known words -/

/-- Settles O4: each admitted word is the encoding of what it decodes to, and the two others fail a check of
the decoder. -/
theorem knownWordsDecode : Obligations.KnownWordsDecode := by
  refine ⟨?lui, ?jal, ?bne, ?lw, ?sw, ?srai, ?sub, ?fence, ?cAddi4spn, ?cJal, ?ecallBit31, ?cAddiZero⟩
  case lui | jal | bne | lw | sw | srai | sub | fence => exact decode32_encode rfl
  case cAddi4spn | cJal => exact decode16_encode rfl rfl
  case ecallBit31 | cAddiZero => rfl

end Sys2Proof.Proofs
end
